-- ==== Sys2Proof/Word.lean ====
section
/-! DEFINITION. The word types of the machine (00_scope.md section 6: all quantities are unsigned). -/

namespace Sys2Proof

/-- An 8-bit value: a general register, a timer, a byte of memory (rules R10, R18, R19, R40). -/
abbrev Byte := BitVec 8

/-- A 16-bit value: an instruction word, `pc`, `I` (rules R60, R12, R13). -/
abbrev Word := BitVec 16

end Sys2Proof
end

