-- ==== Sys2Proof/Syntax.lean ====
section
/-! DEFINITION. The 34 instructions of rule R66, one constructor per row of spec/opcode_table.json, in the table's order.
The hexadecimal pattern in a docstring is the instruction's primary name (rule R70). -/

namespace Sys2Proof

/-- The number of a general register `V[0]` to `V[15]`: a 4-bit field, so never out of range (rule R10). -/
abbrev Reg := Fin 16

/-- The number of a key `0x0` to `0xF` (rule R20). -/
abbrev Key := Fin 16

/-- An instruction with the operands its word carries (rules R62, R63). -/
inductive Instr where
  /-- `00E0`, `CLS`: clear display (R160). -/
  | cls
  /-- `00EE`, `RET`: return (R102). -/
  | ret
  /-- `1NNN`, `JP nnn`: jump (R100). -/
  | jp (nnn : BitVec 12)
  /-- `2NNN`, `CALL nnn`: call (R101). -/
  | call (nnn : BitVec 12)
  /-- `3XNN`, `SE Vx, nn`: skip if equal to immediate (R104). -/
  | seImm (x : Reg) (nn : Byte)
  /-- `4XNN`, `SNE Vx, nn`: skip if not equal to immediate (R105). -/
  | sneImm (x : Reg) (nn : Byte)
  /-- `5XY0`, `SE Vx, Vy`: skip if registers equal (R106). -/
  | seReg (x y : Reg)
  /-- `6XNN`, `LD Vx, nn`: load immediate (R120). -/
  | ldImm (x : Reg) (nn : Byte)
  /-- `7XNN`, `ADD Vx, nn`: add immediate, no flag (R121). -/
  | addImm (x : Reg) (nn : Byte)
  /-- `8XY0`, `LD Vx, Vy`: copy (R122). -/
  | ldReg (x y : Reg)
  /-- `8XY1`, `OR Vx, Vy` (R123). -/
  | or (x y : Reg)
  /-- `8XY2`, `AND Vx, Vy` (R124). -/
  | and (x y : Reg)
  /-- `8XY3`, `XOR Vx, Vy` (R125). -/
  | xor (x y : Reg)
  /-- `8XY4`, `ADD Vx, Vy`: add with carry flag (R126). -/
  | addReg (x y : Reg)
  /-- `8XY5`, `SUB Vx, Vy`: subtract `V[Y]` from `V[X]` (R127). -/
  | sub (x y : Reg)
  /-- `8XY6`, `SHR Vx`: shift right by one in place; the `Y` field is an ignored operand (R128, R65). -/
  | shr (x y : Reg)
  /-- `8XY7`, `SUBN Vx, Vy`: subtract `V[X]` from `V[Y]` (R129). -/
  | subn (x y : Reg)
  /-- `8XYE`, `SHL Vx`: shift left by one in place; the `Y` field is an ignored operand (R130, R65). -/
  | shl (x y : Reg)
  /-- `9XY0`, `SNE Vx, Vy`: skip if registers differ (R107). -/
  | sneReg (x y : Reg)
  /-- `ANNN`, `LD I, nnn`: load index immediate (R140). -/
  | ldI (nnn : BitVec 12)
  /-- `BNNN`, `JP V0, nnn`: jump with offset (R103). -/
  | jpV0 (nnn : BitVec 12)
  /-- `CXNN`, `RND Vx, nn`: random AND immediate (R131). -/
  | rnd (x : Reg) (nn : Byte)
  /-- `DXYN`, `DRW Vx, Vy, n`: draw sprite of `n` rows (R161). -/
  | drw (x y : Reg) (n : BitVec 4)
  /-- `EX9E`, `SKP Vx`: skip if key pressed (R170). -/
  | skp (x : Reg)
  /-- `EXA1`, `SKNP Vx`: skip if key not pressed (R171). -/
  | sknp (x : Reg)
  /-- `FX07`, `LD Vx, DT`: read delay timer (R173). -/
  | ldVxDt (x : Reg)
  /-- `FX0A`, `LD Vx, K`: wait for a key press (R172). -/
  | ldVxKey (x : Reg)
  /-- `FX15`, `LD DT, Vx`: set delay timer (R174). -/
  | ldDtVx (x : Reg)
  /-- `FX18`, `LD ST, Vx`: set sound timer (R175). -/
  | ldStVx (x : Reg)
  /-- `FX1E`, `ADD I, Vx`: add register to index (R141). -/
  | addI (x : Reg)
  /-- `FX29`, `LD F, Vx`: point `I` at a font glyph (R142). -/
  | ldF (x : Reg)
  /-- `FX33`, `LD B, Vx`: store binary-coded decimal (R143). -/
  | ldB (x : Reg)
  /-- `FX55`, `LD [I], Vx`: store registers `V[0]` to `V[X]` (R144). -/
  | storeRegs (x : Reg)
  /-- `FX65`, `LD Vx, [I]`: load registers `V[0]` to `V[X]` (R145). -/
  | loadRegs (x : Reg)
  deriving DecidableEq, Repr

end Sys2Proof
end

