-- ==== Sys2Proof/Config.lean ====
section
/-! DEFINITION. The implementation parameters of rule R4 at their stated values, and the free values: constants without a
body, one for each thing the spec leaves open. -/

namespace Sys2Proof.Config

/-- `MEM_SIZE`: addresses `0x000` to `0xFFF`. -/
def memSize : Nat := 4096

/-- `FONT_BASE`. -/
def fontBase : Nat := 0x000

/-- `FONT_BYTES`: 16 glyphs of 5 bytes. -/
def fontBytes : Nat := 80

/-- `PROG_BASE`: the load address of a program and the entry point. -/
def progBase : Nat := 0x200

/-- `PROG_MAX`: the longest program image. -/
def progMax : Nat := 3584

/-- `STACK_DEPTH`. -/
def stackDepth : Nat := 16

/-- `STACK_ENTRY_WIDTH`: the bits of a stack entry, the width of `pc` (rule R14, decision D17, log entry 19). -/
abbrev stackEntryWidth : Nat := 16

/-- `DISP_W`. -/
def dispW : Nat := 64

/-- `DISP_H`. -/
def dispH : Nat := 32

/-- The glyphs of the digits 0 to 7 (rule R26). PRESUMED (unsafe): the bytes are the family's, not the source's (log entry 4). -/
def fontLow : List Byte :=
  [0xF0, 0x90, 0x90, 0x90, 0xF0,
   0x20, 0x60, 0x20, 0x20, 0x70,
   0xF0, 0x10, 0xF0, 0x80, 0xF0,
   0xF0, 0x10, 0xF0, 0x10, 0xF0,
   0x90, 0x90, 0xF0, 0x10, 0x10,
   0xF0, 0x80, 0xF0, 0x10, 0xF0,
   0xF0, 0x80, 0xF0, 0x90, 0xF0,
   0xF0, 0x10, 0x20, 0x40, 0x40]

/-- The glyphs of the digits 8 to F (rule R26), as `fontLow`. -/
def fontHigh : List Byte :=
  [0xF0, 0x90, 0xF0, 0x90, 0xF0,
   0xF0, 0x90, 0xF0, 0x10, 0xF0,
   0xF0, 0x90, 0xF0, 0x90, 0x90,
   0xE0, 0x90, 0xE0, 0x90, 0xE0,
   0xF0, 0x80, 0x80, 0x80, 0xF0,
   0xE0, 0x90, 0x90, 0x90, 0xE0,
   0xF0, 0x80, 0xF0, 0x80, 0xF0,
   0xF0, 0x80, 0xF0, 0x80, 0x80]

/-- `FONT[0..79]` (rule R26). -/
def font : List Byte := fontLow ++ fontHigh

/-- `SPRITE_MSB_LEFT`: bit 7 of a sprite byte is the leftmost pixel. PRESUMED (unsafe): log entry 5. -/
def spriteMsbLeft : Bool := true

/-- What a program store into the font area does (rule R4, parameter `FONT_WRITE`). -/
inductive FontWrite where
  | fault
  | permit
  deriving DecidableEq, Repr

/-- `FONT_WRITE`, at its default: such a store raises `FontWrite` (decision D4, log entry 6). -/
def fontWrite : FontWrite := .fault

/-- `VF_LAST`: the flag is written after the result (rule R6, decision D6, log entry 7). -/
def vfLast : Bool := true

/-- What the fetch makes of an odd `pc` (rule R4, parameter `PC_ALIGN_CHECK`). -/
inductive PcAlignCheck where
  | off
  | on
  deriving DecidableEq, Repr

/-- `PC_ALIGN_CHECK`, at its default: an odd `pc` is fetched from without fault (rule R45, decision D5, log entry 9). -/
def pcAlignCheck : PcAlignCheck := .off

/-- What `EX9E` and `EXA1` make of a `V[X]` above 15 (rule R4, parameter `KEY_INDEX_POLICY`). -/
inductive KeyIndexPolicy where
  | mask
  | fault
  deriving DecidableEq, Repr

/-- `KEY_INDEX_POLICY`, at its default: the low four bits select the key (rules R170, R171, decision D9, log entry 8). -/
def keyIndexPolicy : KeyIndexPolicy := .mask

/-! ### Free values

Nothing constrains what one answers. Those drawn afresh each time are indexed by a plain number, the count of draws so far. -/

/-- The byte the host's random source delivers at a draw (rules R133, R220; log entry 1). -/
opaque randomByte : Nat → Byte

/-- Which of the five causes an odd `pc` raises under `PC_ALIGN_CHECK` = on: the spec names none (log entry 9). -/
opaque pcAlignCause : Fin 5

/-- Which of the five causes a key index above 15 raises under `KEY_INDEX_POLICY` = fault: the spec names none (log entry 8). -/
opaque keyIndexCause : Fin 5

/-- The general registers after a fault (rule R204; log entry 2, and so for every constant below). -/
opaque anyV : Nat → Vector Byte 16
/-- `I` after a fault. -/
opaque anyI : Nat → Word
/-- `pc` after a fault. -/
opaque anyPc : Nat → Word
/-- The stack entries after a fault. -/
opaque anyStack : Nat → Vector (BitVec stackEntryWidth) 16
/-- `SP` after a fault. -/
opaque anySp : Nat → Fin 17
/-- The byte of memory at an address (the second argument) after a fault. -/
opaque anyMem : Nat → Nat → Byte
/-- The display after a fault. -/
opaque anyFb : Nat → Vector (BitVec 64) 32
/-- `DT` after a fault. -/
opaque anyDt : Nat → Byte
/-- `ST` after a fault. -/
opaque anySt : Nat → Byte
/-- The key levels after a fault. -/
opaque anyK : Nat → Vector Bool 16
/-- `awaitingKey` after a fault. -/
opaque anyAwaitingKey : Nat → Option (Fin 16)
/-- `keyEvent` after a fault. -/
opaque anyKeyEvent : Nat → Option (Fin 16)

end Sys2Proof.Config
end

