-- ==== Sys2Proof/Machine/State.lean ====
section
/-! DEFINITION. The machine's state as plain data (10_state.md), the reasons a step can stop, and the state after reset. -/

namespace Sys2Proof.Machine

/-- The five fault causes of rule R200.

Who raises them: the fetch, the decoder and the meanings of `00EE`, `2NNN`, `DXYN`, `FX33`, `FX55`, `FX65` record one in
`State.fault` (fault entry, rule R203), which is a NEXT state; `step` then ANSWERS it as an outcome in every later step of
the faulted core (rule R87), where the machine makes no further progress. Safe: a stop admits no behaviour the spec excludes.
At the other values of `PC_ALIGN_CHECK` and `KEY_INDEX_POLICY` the fetch, `EX9E` and `EXA1` raise one of them too, a free one. -/
inductive Fault where
  /-- Code 1: the fetched word is illegal (rules R67, R83). Raised by the decode of a step. Safe. -/
  | unknownOpcode
  /-- Code 2: `2NNN` with `SP == 16` (rule R101). Safe. -/
  | stackOverflow
  /-- Code 3: `00EE` with `SP == 0` (rule R102). Safe. -/
  | stackUnderflow
  /-- Code 4: an access above `0xFFF` (rules R42 to R44), by the fetch, `DXYN`, `FX33`, `FX55` or `FX65`. Safe. -/
  | addressOutOfRange
  /-- Code 5: a program store to `0x000..0x04F` (rule R43), by `FX33` or `FX55`. Safe. -/
  | fontWrite
  deriving DecidableEq, Repr

/-- Refusals. -/
inductive Refusal where
  /-- An instruction that has no meaning yet, raised in its arm of `exec` alone. Safe. No arm raises it: all 34 have one. -/
  | notModelled (mnemonic : String)
  deriving DecidableEq, Repr

/-- All state of the core (10_state.md), and the model's own counter of free values. -/
structure State where
  /-- `V[0]` to `V[15]` (R10, R11). -/
  v : Vector Byte 16
  /-- `I` (R12). -/
  i : Word
  /-- `pc` (R13). -/
  pc : Word
  /-- `stack[0]` to `stack[15]` (R14). -/
  stack : Vector (BitVec Config.stackEntryWidth) 16
  /-- `SP`, 0 to 16 (R15). -/
  sp : Fin 17
  /-- `Mem` (R16): the cells that differ from the reset contents, addresses strictly rising (`Memory.wf`). -/
  mem : List Host.Cell
  /-- `FB` (R17): 32 rows of 64 one-bit cells; cell `y*64 + x` is bit `x` of row `y`. -/
  fb : Vector (BitVec 64) 32
  /-- `DT` (R18). -/
  dt : Byte
  /-- `ST` (R19). -/
  st : Byte
  /-- `K[0]` to `K[15]` (R20). -/
  k : Vector Bool 16
  /-- `awaitingKey` (R30). -/
  awaitingKey : Option Reg
  /-- `keyEvent` (R31). -/
  keyEvent : Option Key
  /-- `fault` (R32). -/
  fault : Option Fault
  /-- The model's own: how many free values have been drawn (log entries 1 and 2). Not state of the core. -/
  draws : Nat
  deriving DecidableEq, Repr

/-- The state right after `reset()` (rules R34, R240). DESIGN CHOICE: `draws` is 0, on which nothing rests (log entry 1). -/
def State.reset : State where
  v := Vector.replicate 16 0
  i := 0
  pc := 0x0200
  stack := Vector.replicate 16 0
  sp := 0
  mem := []
  fb := Vector.replicate 32 0
  dt := 0
  st := 0
  k := Vector.replicate 16 false
  awaitingKey := none
  keyEvent := none
  fault := none
  draws := 0

end Sys2Proof.Machine
end

