-- ==== Sys2Proof/Machine/Ops.lean ====
section
/-! DEFINITION. The named operations over memory, registers, stack and display, and fault entry (20_memory.md, 10_state.md,
60_exceptions.md section 2). -/

namespace Sys2Proof.Machine

/-! ### Memory as data -/

/-- What an unlisted address reads as: the reset contents, the font at `0x000..0x04F` and 0 elsewhere (rules R16, R34). -/
def Memory.unlisted (a : Nat) : Byte :=
  if a < Config.fontBase + Config.fontBytes then (Config.font[a - Config.fontBase]?).getD 0 else 0

/-- The canonical form: addresses strictly rising and inside memory, no cell equal to what its address reads as unlisted. -/
abbrev Memory.wf (m : List Host.Cell) : Prop :=
  m.Pairwise (fun c d => c.1 < d.1) ∧ ∀ c ∈ m, c.1 < Config.memSize ∧ c.2 ≠ Memory.unlisted c.1

/-- `Mem[a]`. -/
def Memory.read : List Host.Cell → Nat → Byte
  | [], a => Memory.unlisted a
  | c :: m, a => if a = c.1 then c.2 else Memory.read m a

/-- Put a cell in front of a list, unless it says no more than the unlisted address does. -/
def Memory.cons (a : Nat) (b : Byte) (m : List Host.Cell) : List Host.Cell :=
  if b = Memory.unlisted a then m else (a, b) :: m

/-- `Mem[a] <- b`, keeping the canonical form. -/
def Memory.write : List Host.Cell → Nat → Byte → List Host.Cell
  | [], a, b => Memory.cons a b []
  | c :: m, a, b =>
    if a < c.1 then Memory.cons a b (c :: m)
    else if a = c.1 then Memory.cons a b m
    else c :: Memory.write m a b

/-- `Mem[a + j] <- bytes[j]` in ascending order, with no check. -/
def Memory.writeAll (m : List Host.Cell) (a : Nat) : List Byte → List Host.Cell
  | [] => m
  | b :: bs => Memory.writeAll (Memory.write m a b) (a + 1) bs

/-- The memory that holds `f a` at every address `a`. -/
def Memory.ofContents (f : Nat → Byte) : List Host.Cell :=
  (List.range Config.memSize).filterMap fun a => if f a = Memory.unlisted a then none else some (a, f a)

/-! ### Registers -/

/-- `VF`, the flag register (rule R11). -/
def vf : Reg := 15

/-- `V[r]` (rule R10). -/
def State.reg (s : State) (r : Reg) : Byte := s.v[r.val]

/-- `V[r] <- b` (rule R10: no register is hard-wired). -/
def State.setReg (s : State) (r : Reg) (b : Byte) : State := { s with v := s.v.set r.val b }

/-- `V[j] <- bytes[j]` for every `j` the list reaches; the other registers keep their values (rule R145). -/
def State.setRegs (s : State) (bytes : List Byte) : State :=
  { s with v := Vector.ofFn fun r => (bytes[r.val]?).getD (s.reg r) }

/-- `I <- w` (rule R12). -/
def State.setI (s : State) (w : Word) : State := { s with i := w }

/-- `pc <- w` (rule R13). -/
def State.setPc (s : State) (w : Word) : State := { s with pc := w }

/-- `pc <- pc + 2` on top of the fetch's own advance (rule R85) when the condition holds. -/
def State.skipIf (s : State) (c : Bool) : State := if c then s.setPc (s.pc + 2) else s

/-- `DT <- b` (rule R18). -/
def State.setDt (s : State) (b : Byte) : State := { s with dt := b }

/-- `ST <- b` (rule R19). -/
def State.setSt (s : State) (b : Byte) : State := { s with st := b }

/-- The display becomes `fb` (rule R17). -/
def State.setFb (s : State) (fb : Vector (BitVec 64) 32) : State := { s with fb := fb }

/-- The memory becomes `m` (rule R16). -/
def State.setMem (s : State) (m : List Host.Cell) : State := { s with mem := m }

/-- Result, then flag: with `V[X]` as `VF` the flag is what remains (rule R6; parameter `VF_LAST`, log entry 7). -/
def State.setResultFlag (s : State) (x : Reg) (result flag : Byte) : State :=
  if Config.vfLast then (s.setReg x result).setReg vf flag else (s.setReg vf flag).setReg x result

/-! ### The access primitives -/

/-- The byte at `a`, without the check. -/
def State.byteAt (s : State) (a : Nat) : Byte := Memory.read s.mem a

/-- `MemRead(a, 1)` (rule R42). -/
def memRead (s : State) (a : Nat) : Except Fault Byte :=
  if Config.memSize ≤ a then .error .addressOutOfRange else .ok (s.byteAt a)

/-- `MemWrite(a, 1, b)` (rule R43; parameter `FONT_WRITE`, log entry 6). -/
def memWrite (s : State) (a : Nat) (b : Byte) : Except Fault State :=
  if Config.memSize ≤ a then .error .addressOutOfRange
  else if a < Config.fontBase + Config.fontBytes ∧ Config.fontWrite = .fault then .error .fontWrite
  else .ok (s.setMem (Memory.write s.mem a b))

/-- `MemRead(a, 2)`, the byte at the lower address the more significant one (rules R41, R44). -/
def memReadWord (s : State) (a : Nat) : Except Fault Word :=
  match memRead s a with
  | .error f => .error f
  | .ok hi =>
    match memRead s (a + 1) with
    | .error f => .error f
    | .ok lo => .ok (hi ++ lo)

/-- The `n` bytes at `a`, `a + 1`, ..., in ascending order (rule R46). -/
def memReadBytes (s : State) (a : Nat) : Nat → Except Fault (List Byte)
  | 0 => .ok []
  | n + 1 =>
    match memRead s a with
    | .error f => .error f
    | .ok b =>
      match memReadBytes s (a + 1) n with
      | .error f => .error f
      | .ok bs => .ok (b :: bs)

/-- Store the bytes at `a`, `a + 1`, ..., in ascending order (rule R46). -/
def memWriteBytes (s : State) (a : Nat) : List Byte → Except Fault State
  | [] => .ok s
  | b :: bs =>
    match memWrite s a b with
    | .error f => .error f
    | .ok t => memWriteBytes t (a + 1) bs

/-! ### The call stack (rules R14, R15) -/

/-- A return address as a stack entry (rule R14; parameter `STACK_ENTRY_WIDTH`). -/
def stackEntry (w : Word) : BitVec Config.stackEntryWidth := w.setWidth Config.stackEntryWidth

/-- A stack entry as the `pc` it returns to (rule R14). -/
def returnAddress (e : BitVec Config.stackEntryWidth) : Word := e.setWidth 16

/-- Push: `stack[SP] <- w; SP <- SP + 1`, `StackOverflow` when `SP == 16` (rule R101). -/
def State.push (s : State) (w : Word) : Except Fault State :=
  if h : s.sp.val < 16 then
    .ok { s with stack := s.stack.set s.sp.val (stackEntry w), sp := ⟨s.sp.val + 1, by omega⟩ }
  else .error .stackOverflow

/-- Pop: `SP <- SP - 1`, then the entry `stack[SP]`; `StackUnderflow` when `SP == 0` (rule R102). -/
def State.pop (s : State) : Except Fault (Word × State) :=
  if h : s.sp.val = 0 then .error .stackUnderflow
  else .ok (returnAddress s.stack[s.sp.val - 1], { s with sp := ⟨s.sp.val - 1, by omega⟩ })

/-! ### The display (rule R17) -/

/-- `FB[c]`, the cell `c = y*64 + x`. -/
def cellOf (fb : Vector (BitVec 64) 32) (c : Nat) : Bool :=
  ((fb[c / Config.dispW]?).getD 0).getLsbD (c % Config.dispW)

/-- `FB[c] <- FB[c] ^ 1`. -/
def flipCell (fb : Vector (BitVec 64) 32) (c : Nat) : Vector (BitVec 64) 32 :=
  fb.setIfInBounds (c / Config.dispW)
    ((fb[c / Config.dispW]?).getD 0 ^^^ BitVec.twoPow 64 (c % Config.dispW))

/-- `FB[c]` of a state. -/
def State.cell (s : State) (c : Nat) : Bool := cellOf s.fb c

/-! ### The key levels (rule R20) -/

/-- `K[k]`. -/
def State.key (s : State) (k : Key) : Bool := s.k[k.val]

/-- `K[k] <- p`. -/
def State.setKeyLevel (s : State) (k : Key) (p : Bool) : State := { s with k := s.k.set k.val p }

/-- Enter the key wait for register `x`: `awaitingKey <- Some(x); keyEvent <- None` (rule R172). -/
def State.await (s : State) (x : Reg) : State := { s with awaitingKey := some x, keyEvent := none }

/-- Leave the key wait: `awaitingKey <- None; keyEvent <- None` (rule R86). -/
def State.endWait (s : State) : State := { s with awaitingKey := none, keyEvent := none }

/-! ### Free values and fault entry -/

/-- The next random byte, and the state after its draw (rule R133, log entry 1). -/
def State.drawRand (s : State) : Byte × State := (Config.randomByte s.draws, { s with draws := s.draws + 1 })

/-- The five causes of rule R200 by number, for a fault the spec has without naming its cause. -/
def unstatedCause (n : Fin 5) : Fault :=
  match n.val with
  | 0 => .unknownOpcode
  | 1 => .stackOverflow
  | 2 => .stackUnderflow
  | 3 => .addressOutOfRange
  | _ => .fontWrite

/-- Every item of state but `fault` takes a fresh free value (rule R204, log entry 2). -/
def State.redraw (s : State) : State where
  v := Config.anyV s.draws
  i := Config.anyI s.draws
  pc := Config.anyPc s.draws
  stack := Config.anyStack s.draws
  sp := Config.anySp s.draws
  mem := Memory.ofContents (Config.anyMem s.draws)
  fb := Config.anyFb s.draws
  dt := Config.anyDt s.draws
  st := Config.anySt s.draws
  k := Config.anyK s.draws
  awaitingKey := Config.anyAwaitingKey s.draws
  keyEvent := Config.anyKeyEvent s.draws
  fault := s.fault
  draws := s.draws + 1

/-- Fault entry, the one place it is written (rules R89, R203, R204): `fault <- Some(F)`, no control transfer, nothing saved,
every other item of state unspecified. -/
def State.raise (s : State) (f : Fault) : State := { s.redraw with fault := some f }

/-- The end of an instruction that may raise: the state it reached, or fault entry (rule R84: nothing in between). -/
def settle (s : State) : Except Fault State → Host.Outcome State Fault Refusal
  | .ok t => .next t
  | .error f => .next (s.raise f)

/-- Return from the faulted condition: the host's `reset()`, the only way out (rules R206, R240), from any state. The count
of free values goes on, since the random source is the host's (rule R33, log entry 1). -/
def State.resetAll (s : State) : State := { State.reset with draws := s.draws }

end Sys2Proof.Machine
end

