-- ==== Sys2Proof/Machine/Flags.lean ====
section
/-! DEFINITION. The values written into the flag register `VF` (rules R11, R132). -/

namespace Sys2Proof.Machine

/-- A flag is always 0 or 1 (rule R11). -/
def flagByte (c : Bool) : Byte := if c then 1 else 0

/-- Carry out of `x + y` (rule R126). -/
def carryFlag (x y : Byte) : Byte := flagByte (decide (255 < x.toNat + y.toNat))

/-- Not-borrow of `p - q`: 1 when `p >= q` (rules R127, R129, R132). -/
def noBorrowFlag (p q : Byte) : Byte := flagByte (decide (q.toNat ≤ p.toNat))

/-- The bit a right shift moves out: old bit 0 (rule R128). -/
def rightShiftFlag (x : Byte) : Byte := flagByte (x.getLsbD 0)

/-- The bit a left shift moves out: old bit 7 (rule R130). -/
def leftShiftFlag (x : Byte) : Byte := flagByte (x.getLsbD 7)

/-- Collision: some cell went from 1 to 0 (rule R161). -/
def collisionFlag (collision : Bool) : Byte := flagByte collision

/-- The tone level `ST > 0` (rules R19, R216). -/
def toneLevel (s : State) : Bool := decide (0 < s.st.toNat)

end Sys2Proof.Machine
end

