-- ==== Sys2Proof/Machine/Operands.lean ====
section
/-! DEFINITION. The operand forms (rules R63, R146): how an instruction's fields and registers become the values it works on. -/

namespace Sys2Proof.Machine

/-- The immediate `NNN` as an address: zero-extended to 16 bits (rule R63). -/
def addressOperand (nnn : BitVec 12) : Word := nnn.setWidth 16

/-- The effective address `EA(j) = I + j`, an unbounded integer (rule R146). -/
def effectiveAddress (s : State) (j : Nat) : Nat := s.i.toNat + j

/-- The register range `V[0]..V[X]` in ascending order (rules R63, R144). -/
def rangeOperand (s : State) (x : Reg) : List Byte := s.v.toList.take (x.val + 1)

/-- How many registers the range `V[0]..V[X]` has. -/
def rangeLength (x : Reg) : Nat := x.val + 1

/-- The key a register selects: its low four bits, or a fault above 15 (rules R170, R171; parameter `KEY_INDEX_POLICY`, log
entry 8). -/
def keyOperand (b : Byte) : Except Fault Key :=
  if Config.keyIndexPolicy = .fault ∧ 15 < b.toNat then .error (unstatedCause Config.keyIndexCause)
  else .ok (Fin.ofNat 16 b.toNat)

/-- The address of the glyph a register selects, `FONT_BASE + V[X] * 5`, with the whole 8-bit value (rule R142). -/
def glyphOperand (b : Byte) : Word := BitVec.ofNat 16 (Config.fontBase + b.toNat * 5)

/-- The jump target `NNN + V[0]`, a 16-bit value with no reduction modulo 4096 (rule R103). -/
def offsetOperand (s : State) (nnn : BitVec 12) : Word := addressOperand nnn + (s.reg 0).setWidth 16

/-- `(I + V[X]) mod 4096` (rule R141). -/
def indexSum (s : State) (x : Reg) : Word := BitVec.ofNat 16 ((s.i.toNat + (s.reg x).toNat) % 4096)

/-- The decimal digits of an 8-bit value: hundreds, tens, ones (rule R143). -/
def decimalDigits (b : Byte) : List Byte :=
  [BitVec.ofNat 8 (b.toNat / 100), BitVec.ofNat 8 (b.toNat / 10 % 10), BitVec.ofNat 8 (b.toNat % 10)]

/-- The pixel `dx` of a sprite row: bit `7 - dx`, bit 7 the leftmost (rule R161; parameter `SPRITE_MSB_LEFT`, log entry 5). -/
def spritePixel (row : Byte) (dx : Nat) : Bool :=
  row.getLsbD (if Config.spriteMsbLeft then 7 - dx else dx)

/-- The cell the pixel `(dx, dy)` of a sprite at `(x0, y0)` lands on, wrapped on both axes (rule R161, conflict C2). -/
def spriteCell (x0 y0 dx dy : Nat) : Nat :=
  (y0 + dy) % Config.dispH * Config.dispW + (x0 + dx) % Config.dispW

end Sys2Proof.Machine
end

