-- ==== Sys2Proof/Machine/Display.lean ====
section
/-! DEFINITION. The display controller (44_display.md). -/

namespace Sys2Proof.Machine

/-- `00E0` (rule R160): all 2048 cells become 0; `VF` is not written. -/
def execCls (s : State) : Host.Outcome State Fault Refusal :=
  .next (s.setFb (Vector.replicate 32 0))

/-- What a draw has reached: the display, and whether a cell went from 1 to 0 so far. -/
structure Drawing where
  fb : Vector (BitVec 64) 32
  collision : Bool
  deriving DecidableEq, Repr

/-- The innermost lines of rule R161: a sprite bit 1 inverts its cell, a sprite bit 0 leaves it. -/
def drawPixel (x0 y0 dy : Nat) (row : Byte) (d : Drawing) (dx : Nat) : Drawing :=
  if spritePixel row dx then
    { fb := flipCell d.fb (spriteCell x0 y0 dx dy)
      collision := d.collision || cellOf d.fb (spriteCell x0 y0 dx dy) }
  else d

/-- One sprite row, `dx` from 0 to 7. -/
def drawRow (x0 y0 dy : Nat) (row : Byte) (d : Drawing) : Drawing :=
  (List.range 8).foldl (drawPixel x0 y0 dy row) d

/-- The rows from `dy` down. -/
def drawRows (x0 y0 : Nat) : Nat → List Byte → Drawing → Drawing
  | _, [], d => d
  | dy, row :: rows, d => drawRows x0 y0 (dy + 1) rows (drawRow x0 y0 dy row d)

/-- `DXYN` (rule R161): coordinates sampled first, rows read from `I` upward, `VF` written once at the end. -/
def execDrw (x y : Reg) (n : BitVec 4) (s : State) : Host.Outcome State Fault Refusal :=
  match memReadBytes s (effectiveAddress s 0) n.toNat with
  | .ok rows =>
    .next ((s.setFb (drawRows (s.reg x).toNat (s.reg y).toNat 0 rows ⟨s.fb, false⟩).fb).setReg vf
      (collisionFlag (drawRows (s.reg x).toNat (s.reg y).toNat 0 rows ⟨s.fb, false⟩).collision))
  | .error f => .next (s.raise f)

end Sys2Proof.Machine
end

