-- ==== Sys2Proof/Machine/IndexMemory.lean ====
section
/-! DEFINITION. Index register and memory instructions (43_index_memory.md). None changes `I` but `ANNN`, `FX1E`, `FX29` (rule R146). -/

namespace Sys2Proof.Machine

/-- `ANNN` (rule R140). -/
def execLdI (nnn : BitVec 12) (s : State) : Host.Outcome State Fault Refusal :=
  .next (s.setI (addressOperand nnn))

/-- `FX1E` (rule R141): 12-bit wrap, `VF` not written. -/
def execAddI (x : Reg) (s : State) : Host.Outcome State Fault Refusal :=
  .next (s.setI (indexSum s x))

/-- `FX29` (rule R142). -/
def execLdF (x : Reg) (s : State) : Host.Outcome State Fault Refusal :=
  .next (s.setI (glyphOperand (s.reg x)))

/-- `FX33` (rule R143). -/
def execLdB (x : Reg) (s : State) : Host.Outcome State Fault Refusal :=
  settle s (memWriteBytes s (effectiveAddress s 0) (decimalDigits (s.reg x)))

/-- `FX55` (rule R144). -/
def execStoreRegs (x : Reg) (s : State) : Host.Outcome State Fault Refusal :=
  settle s (memWriteBytes s (effectiveAddress s 0) (rangeOperand s x))

/-- `FX65` (rule R145). -/
def execLoadRegs (x : Reg) (s : State) : Host.Outcome State Fault Refusal :=
  match memReadBytes s (effectiveAddress s 0) (rangeLength x) with
  | .ok bytes => .next (s.setRegs bytes)
  | .error f => .next (s.raise f)

end Sys2Proof.Machine
end

