-- ==== Sys2Proof/Machine/KeypadTimers.lean ====
section
/-! DEFINITION. Keypad and timer instructions (45_keypad_timers.md). -/

namespace Sys2Proof.Machine

/-- `EX9E` (rule R170): the level, not a transition. -/
def execSkp (x : Reg) (s : State) : Host.Outcome State Fault Refusal :=
  match keyOperand (s.reg x) with
  | .ok k => .next (s.skipIf (s.key k))
  | .error f => .next (s.raise f)

/-- `EXA1` (rule R171). -/
def execSknp (x : Reg) (s : State) : Host.Outcome State Fault Refusal :=
  match keyOperand (s.reg x) with
  | .ok k => .next (s.skipIf (!s.key k))
  | .error f => .next (s.raise f)

/-- `FX0A` (rule R172): only enters the wait; `pc` goes back to `a`, which is the advanced `pc` less 2. -/
def execLdVxKey (x : Reg) (s : State) : Host.Outcome State Fault Refusal :=
  .next ((s.await x).setPc (s.pc - 2))

/-- `FX07` (rule R173). -/
def execLdVxDt (x : Reg) (s : State) : Host.Outcome State Fault Refusal :=
  .next (s.setReg x s.dt)

/-- `FX15` (rule R174). -/
def execLdDtVx (x : Reg) (s : State) : Host.Outcome State Fault Refusal :=
  .next (s.setDt (s.reg x))

/-- `FX18` (rule R175). -/
def execLdStVx (x : Reg) (s : State) : Host.Outcome State Fault Refusal :=
  .next (s.setSt (s.reg x))

end Sys2Proof.Machine
end

