-- ==== Sys2Proof/Machine/Cycle.lean ====
section
/-! DEFINITION. The `step()` state machine (40_step_cycle.md): fetch, advance, decode, execute; the wait step; the faulted step. -/

namespace Sys2Proof.Machine

/-- Fetch (rules R45, R81): the big-endian word at `pc`, whatever the parity of `pc`, unless `PC_ALIGN_CHECK` is on (log entry
9). -/
def fetch (s : State) : Except Fault Word :=
  if Config.pcAlignCheck = .on ∧ s.pc.toNat % 2 = 1 then .error (unstatedCause Config.pcAlignCause)
  else memReadWord s s.pc.toNat

/-- Fetch and decode (rules R81, R83): every refusal of the decoder is `UnknownOpcode`. -/
def fetchInstr (s : State) : Except Fault Instr :=
  match fetch s with
  | .error f => .error f
  | .ok op =>
    match decode op with
    | .ok i => .ok i
    | .error _ => .error .unknownOpcode

/-- Advance (rule R82): `pc <- a + 2`, before the semantics. -/
def advance (s : State) : State := s.setPc (s.pc + 2)

/-- The wait step for register `x` (rule R86). -/
def waitStep (x : Reg) (s : State) : State :=
  match s.keyEvent with
  | some k => (s.endWait.setReg x (BitVec.ofNat 8 k.val)).setPc (s.pc + 2)
  | none => s

/-- A step in the running condition (rules R81 to R84, R89). -/
def runningStep (s : State) : Host.Outcome State Fault Refusal :=
  match fetchInstr s with
  | .ok i => exec i (advance s)
  | .error f => .next (s.raise f)

/-- `step()` (rule R80). In the faulted condition it answers the cause and changes nothing (rule R87). -/
def stepTransaction (s : State) : Host.Outcome State Fault Refusal :=
  match s.fault with
  | some c => .fault c
  | none =>
    match s.awaitingKey with
    | some x => .next (waitStep x s)
    | none => runningStep s

/-- `00E0` and `DXYN` report a changed display, and no other instruction (rule R88). -/
def marksDisplay : Instr → Bool
  | .cls => true
  | .drw _ _ _ => true
  | _ => false

/-- `fb_changed` of a step from `s` that does not fault (rule R88): the step executes `00E0` or `DXYN`. -/
def fbChanged (s : State) : Bool :=
  match s.awaitingKey with
  | some _ => false
  | none =>
    match fetchInstr s with
    | .ok i => marksDisplay i
    | .error _ => false

/-- Where `withFetchWord` places its instruction: the `pc`, or the entry point if nothing can be fetched at the `pc`. -/
def fetchPlace (s : State) : Word := if s.pc.toNat + 1 < Config.memSize then s.pc else 0x0200

/-- The state with a word of the opcode table where the next step fetches, in the running condition. -/
def placeWord (s : State) (nbits w : Nat) : State :=
  { s with
    mem := Memory.writeAll s.mem (fetchPlace s).toNat
      [highByte (tableWord nbits w), lowByte (tableWord nbits w)]
    pc := fetchPlace s
    awaitingKey := none
    keyEvent := none
    fault := none }

end Sys2Proof.Machine
end

