-- ==== Sys2Proof/Machine/Step.lean ====
section
/-! DEFINITION. One step of the machine, `step()` of rule R80, and the state with a given instruction where the step fetches. -/

namespace Sys2Proof.Machine

/-- `step()` (rule R80). -/
def step (s : State) : Host.Outcome State Fault Refusal := stepTransaction s

/-- `s` with the instruction `w` stored where `step` fetches next: at `pc`, in the running condition (log entry 11). -/
def State.withFetchWord (s : State) (nbits w : Nat) : State := placeWord s nbits w

end Sys2Proof.Machine
end

