-- ==== Sys2Proof/Machine/Transactions.lean ====
section
/-! DEFINITION. The transactions the host issues between steps (rules R3, R225), and every transaction as one move of a
schedule the host is free to choose (rules R212, R217). -/

namespace Sys2Proof.Machine

/-- The numeric code of a cause (rule R200, decision D14). -/
def faultCode : Fault → Nat
  | .unknownOpcode => 1
  | .stackOverflow => 2
  | .stackUnderflow => 3
  | .addressOutOfRange => 4
  | .fontWrite => 5

/-- The result code of `LoadError`, apart from the fault codes (rule R202). -/
def loadErrorCode : Nat := 16

/-- One transaction of rule R3. `setKey`'s index cannot lie outside 0 to 15 (rule R218). -/
inductive Transaction where
  | reset
  | loadProgram (bytes : List Byte)
  | step
  | tick
  | setKey (k : Key) (pressed : Bool)
  | framebuffer
  | isSoundActive
  deriving DecidableEq, Repr

/-- What the core returns (rule R225). -/
inductive Response where
  /-- `reset()`, `tick()`, `setKey()`: nothing. -/
  | nothing
  /-- `loadProgram`: ok. -/
  | loaded
  /-- `loadProgram`: `LoadError`, the image is too long. -/
  | loadError
  /-- `step()`: `Ok(fb_changed, tone)`. -/
  | stepped (fbChanged tone : Bool)
  /-- `step()`: `Err(cause)`. -/
  | stepError (cause : Fault)
  /-- `framebuffer()`: the 2048 cells. -/
  | cells (fb : Vector (BitVec 64) 32)
  /-- `isSoundActive()`: the level. -/
  | level (active : Bool)
  /-- No answer of the core: the model has no meaning for the instruction. Never met: every instruction has one. -/
  | refused (r : Refusal)
  deriving DecidableEq, Repr

/-- A host transaction that is accepted in the faulted condition keeps `fault`, and the state it leaves there is as
unspecified as the one it found (rule R204, log entry 2). -/
def unlessFaulted (s : State) (t : State) : State := if s.fault = none then t else s.redraw

/-- A count that goes down by one and stops at 0 (rules R18, R19). -/
def countDown (b : Byte) : Byte := if 0 < b.toNat then b - 1 else b

/-- `tick()` (rule R215). -/
def tick (s : State) : State :=
  unlessFaulted s ((s.setDt (countDown s.dt)).setSt (countDown s.st))

/-- The press transition `setKey(k, p)` latches, if any (rule R218, first line). -/
def latchedEvent (s : State) (k : Key) (p : Bool) : Option Key :=
  if p = true ∧ s.key k = false ∧ s.awaitingKey ≠ none ∧ s.keyEvent = none then some k else s.keyEvent

/-- `setKey(k, p)` (rule R218). -/
def setKey (s : State) (k : Key) (p : Bool) : State :=
  unlessFaulted s { s.setKeyLevel k p with keyEvent := latchedEvent s k p }

/-- `loadProgram(bytes)` and its result (rule R242): the length is checked before any byte is copied. -/
def loadProgram (s : State) (bytes : List Byte) : State × Response :=
  if Config.progMax < bytes.length then (unlessFaulted s s, .loadError)
  else (unlessFaulted s (s.setMem (Memory.writeAll s.mem Config.progBase bytes)), .loaded)

/-- What a step from `s` that left `t` returns (rules R88, R89). -/
def stepResponse (s t : State) : Response :=
  match t.fault with
  | some c => .stepError c
  | none => .stepped (fbChanged s) (toneLevel t)

/-- One transaction: the state it leaves and what it returns (rules R3, R225). -/
def perform (t : Transaction) (s : State) : State × Response :=
  match t with
  | .reset => (s.resetAll, .nothing)
  | .loadProgram bytes => loadProgram s bytes
  | .step =>
    match step s with
    | .next s' => (s', stepResponse s s')
    | .fault c => (s, .stepError c)
    | .refused r => (s, .refused r)
  | .tick => (tick s, .nothing)
  | .setKey k p => (setKey s k p, .nothing)
  | .framebuffer => (s, .cells s.fb)
  | .isSoundActive => (s, .level (toneLevel s))

/-- A schedule: transactions one at a time, in the order the host issues them (rules R3, R217). -/
def performAll : List Transaction → State → State
  | [], s => s
  | t :: ts, s => performAll ts (perform t s).1

end Sys2Proof.Machine
end

