-- ==== Sys2Proof/Safety.lean ====
section
/-! DEFINITION. The terms claims are made in: safe states, invariants, frames, the reach of the host's schedules. -/

namespace Sys2Proof

open Machine

/-- No fault has occurred: the condition a claim about a program carries (rule R204). -/
def Safe (s : State) : Prop := s.fault = none

/-- The running condition (rule R80). -/
def Running (s : State) : Prop := s.fault = none ∧ s.awaitingKey = none

/-- The font is intact (rules R26, R35). -/
def FontIntact (s : State) : Prop :=
  ∀ j, j < Config.fontBytes → s.byteAt (Config.fontBase + j) = (Config.font[j]?).getD 0

/-- The invariants rule R35 lists for states without a fault, in its order (the ranges of `SP`, of the registers, timers,
cells and keys are the types of their fields). -/
structure StateRules (s : State) : Prop where
  index : s.i.toNat ≤ 0xFFF
  font : FontIntact s
  event : s.awaitingKey = none → s.keyEvent = none
  counter : s.pc.toNat ≤ 0x10FE

/-- What `StateRules` needs beside it to be kept by a step: a waiting `pc` is one that was fetched from, and the live return
addresses are advanced `pc` values (rules R13, R14). -/
structure ControlRules (s : State) : Prop where
  waiting : s.awaitingKey ≠ none → s.pc.toNat ≤ 0xFFE
  returns : ∀ j (h : j < 16), j < s.sp.val → (s.stack[j]).toNat ≤ 0x1000

/-- The invariant of the machine: memory in canonical form always, the rules of R35 as long as no fault has occurred. -/
def Inv (s : State) : Prop :=
  Memory.wf s.mem ∧ (s.fault = none → StateRules s ∧ ControlRules s)

/-- The states the host's schedules reach from the reset state (rules R35, R243). -/
inductive Reachable : State → Prop
  | reset : Reachable State.reset
  | perform (t : Transaction) {s : State} : Reachable s → Reachable (perform t s).1

/-- The idle point (rule R252): no fault, no wait, and the word at `pc` jumps to `pc`. -/
def Idle (s : State) : Prop :=
  Running s ∧ ∃ nnn : BitVec 12, fetchInstr s = .ok (.jp nnn) ∧ nnn.setWidth 16 = s.pc

/-! ### Frames: what is unchanged from `s` to `t` -/

/-- Every register outside the list. -/
def SameRegsExcept (rs : List Reg) (s t : State) : Prop := ∀ r, r ∉ rs → t.reg r = s.reg r

/-- Every byte of memory. -/
def SameMemory (s t : State) : Prop := ∀ a, t.byteAt a = s.byteAt a

/-- Every byte of memory outside `n` bytes from `a`. -/
def SameMemoryOutside (a n : Nat) (s t : State) : Prop :=
  ∀ b, b < a ∨ a + n ≤ b → t.byteAt b = s.byteAt b

/-- The return stack and its pointer. -/
def SameStack (s t : State) : Prop := t.sp = s.sp ∧ t.stack = s.stack

/-- Every cell of the display. -/
def SameDisplay (s t : State) : Prop := ∀ c, c < 2048 → t.cell c = s.cell c

/-- Both timers. -/
def SameTimers (s t : State) : Prop := t.dt = s.dt ∧ t.st = s.st

/-- The keypad: levels, wait and latch. -/
def SameKeypad (s t : State) : Prop :=
  (∀ k, t.key k = s.key k) ∧ t.awaitingKey = s.awaitingKey ∧ t.keyEvent = s.keyEvent

/-- The index register. -/
def SameIndex (s t : State) : Prop := t.i = s.i

/-- The fault status. -/
def SameFault (s t : State) : Prop := t.fault = s.fault

/-- Everything but the general registers and `pc`: what the register instructions, skips and jumps leave alone. -/
def OnlyRegsAndPc (s t : State) : Prop :=
  SameMemory s t ∧ SameStack s t ∧ SameDisplay s t ∧ SameTimers s t ∧ SameKeypad s t ∧ SameIndex s t ∧ SameFault s t

/-! ### Shapes of an instruction's whole effect: it answers a next state, with these values and this frame -/

/-- The instruction leaves `pc` at `a + 4` when the condition holds and at `a + 2` otherwise, and changes nothing else
(rule R85; `pc` is `a + 2` when the meaning begins). -/
def SkipsWhen (i : Instr) (c : State → Prop) : Prop :=
  ∀ s, ∃ t, exec i s = .next t ∧ (c s → t.pc = s.pc + 2) ∧ (¬c s → t.pc = s.pc) ∧
    SameRegsExcept [] s t ∧ OnlyRegsAndPc s t

/-- The instruction writes one register and changes nothing else. -/
def SetsReg (i : Instr) (x : Reg) (value : State → Byte) : Prop :=
  ∀ s, ∃ t, exec i s = .next t ∧ t.reg x = value s ∧ t.pc = s.pc ∧ SameRegsExcept [x] s t ∧ OnlyRegsAndPc s t

/-- The instruction writes one register, then the flag into `VF`, and changes nothing else: with the register `VF` itself
the flag is what remains (rule R6). -/
def SetsRegAndFlag (i : Instr) (x : Reg) (value flag : State → Nat) : Prop :=
  ∀ s, ∃ t, exec i s = .next t ∧ (t.reg 15).toNat = flag s ∧ (x ≠ 15 → (t.reg x).toNat = value s) ∧ t.pc = s.pc ∧
    SameRegsExcept [x, 15] s t ∧ OnlyRegsAndPc s t

/-- The instruction writes the index register and changes nothing else. -/
def SetsIndex (i : Instr) (value : State → Nat) : Prop :=
  ∀ s, ∃ t, exec i s = .next t ∧ t.i.toNat = value s ∧ t.pc = s.pc ∧ SameRegsExcept [] s t ∧
    SameMemory s t ∧ SameStack s t ∧ SameDisplay s t ∧ SameTimers s t ∧ SameKeypad s t ∧ SameFault s t

/-- Everything but memory, the display, and the registers outside the list: the frame of the memory and display instructions. -/
def OnlyMemoryDisplayAndRegs (rs : List Reg) (s t : State) : Prop :=
  SameRegsExcept rs s t ∧ t.pc = s.pc ∧ SameStack s t ∧ SameTimers s t ∧ SameKeypad s t ∧ SameIndex s t ∧ SameFault s t

/-- A sprite of `n` rows at `I`, drawn at `(x0, y0)`, has a 1 bit that lands on cell `c` (rule R161): bit `7 - dx` of row
`dy` is the pixel at column `(x0 + dx) mod 64` and row `(y0 + dy) mod 32`. -/
def SpriteLights (s : State) (x0 y0 n c : Nat) : Prop :=
  ∃ dy dx, dy < n ∧ dx < 8 ∧ (s.byteAt (s.i.toNat + dy)).getLsbD (7 - dx) = true ∧
    c = (y0 + dy) % 32 * 64 + (x0 + dx) % 64

/-- Both states are equal but for the counter of free values, which is the model's own (log entry 1). -/
def SameButDraws (s t : State) : Prop := t = { s with draws := t.draws }

end Sys2Proof
end

