-- ==== Sys2Proof/Certificates/Slice0/Obligations.lean ====
section
/-! DEFINITION. The statements for the provers. Each docstring names the rules it formalises; where one rests on a decision the
spec marks as its own (D<n>) or on general knowledge (G<n>), the docstring says so. In a statement about `exec`, `s.pc` is
`a + 2`, the address after the instruction (rule R82). -/

open Sys2Proof Sys2Proof.Machine

/-! ### Encoding -/

/-- Thirteen words written out from rule R66's patterns, of families 0, 1, 3, 5, 6, 8, A, D, E and F, decode, and two words that no
pattern accepts are refused. (The tests decode a word of every pattern.) -/
def Obligations.SampleWordsDecode : Prop :=
  decode 0x00E0 = .ok .cls ∧ decode 0x00EE = .ok .ret ∧ decode 0x1234 = .ok (.jp 0x234) ∧
  decode 0x332A = .ok (.seImm 3 0x2A) ∧ decode 0x5120 = .ok (.seReg 1 2) ∧ decode 0x6A2C = .ok (.ldImm 10 0x2C) ∧
  decode 0x8124 = .ok (.addReg 1 2) ∧ decode 0x81AE = .ok (.shl 1 10) ∧ decode 0xA2F0 = .ok (.ldI 0x2F0) ∧
  decode 0xD015 = .ok (.drw 0 1 5) ∧ decode 0xE29E = .ok (.skp 2) ∧ decode 0xF30A = .ok (.ldVxKey 3) ∧
  decode 0xF255 = .ok (.storeRegs 2) ∧ decode 0x0000 = .error (.unknownOpcode 0x0000) ∧
  decode 0x5121 = .error (.unknownOpcode 0x5121)

/-- Decode and encode agree on every instruction, as a word and as the two bytes that stand in memory before any others. -/
def Obligations.DecodeInvertsEncode : Prop :=
  ∀ (i : Instr) (rest : List Byte),
    decode (encode i) = .ok i ∧ decodeBytes (encodeBytes i ++ rest) = .ok (i, rest)

/-- Every word has one meaning: what a word decodes to encodes to that word. -/
def Obligations.EncodeInvertsDecode : Prop :=
  ∀ (op : Word) (i : Instr), decode op = .ok i → encode i = op

/-- The decoder and the opcode map of rule R66 agree: a word decodes to an instruction exactly when a row accepts it, the rows
that accept it are the row of that instruction alone, and a word no row accepts is refused as unknown. -/
def Obligations.DecodeFollowsOpcodeMap : Prop :=
  ∀ op : Word,
    (∀ i, decode op = .ok i → ∀ r ∈ opcodeRows, (r.accepts op = true ↔ r.pattern = i.pattern)) ∧
    (legalWord op = true → ∃ i, decode op = .ok i) ∧
    (legalWord op = false → decode op = .error (.unknownOpcode op))

/-- The illegal words by family, as rule R67 lists them. -/
def Obligations.IllegalWordsByFamily : Prop :=
  ∀ op : Word, legalWord op = false ↔
    ((op.toNat / 4096 = 0 ∧ op ≠ 0x00E0 ∧ op ≠ 0x00EE) ∨
     (op.toNat / 4096 = 5 ∧ op.toNat % 16 ≠ 0) ∨
     (op.toNat / 4096 = 8 ∧ op.toNat % 16 ∈ [8, 9, 0xA, 0xB, 0xC, 0xD, 0xF]) ∨
     (op.toNat / 4096 = 9 ∧ op.toNat % 16 ≠ 0) ∨
     (op.toNat / 4096 = 0xE ∧ op.toNat % 256 ∉ [0x9E, 0xA1]) ∨
     (op.toNat / 4096 = 0xF ∧ op.toNat % 256 ∉ [0x07, 0x0A, 0x15, 0x18, 0x1E, 0x29, 0x33, 0x55, 0x65]))

/-! ### The step machine -/

/-- Rules R81 to R84: a running step executes the instruction whose big-endian word stands at `pc`, after the advance by 2. -/
def Obligations.StepRunsDecodedInstruction : Prop :=
  ∀ (s : State) (i : Instr), Running s → s.pc.toNat ≤ 0xFFE →
    decode (s.byteAt s.pc.toNat ++ s.byteAt (s.pc.toNat + 1)) = .ok i →
    step s = exec i (s.setPc (s.pc + 2))

/-- Rules R44 and R81: a fetch beyond `0xFFE` raises `AddressOutOfRange`. -/
def Obligations.FetchBeyondMemoryFaults : Prop :=
  ∀ s : State, Running s → 0xFFE < s.pc.toNat →
    ∃ t, step s = .next t ∧ t.fault = some .addressOutOfRange ∧ perform .step s = (t, .stepError .addressOutOfRange)

/-- Rules R67 and R83: an illegal word raises `UnknownOpcode`. -/
def Obligations.IllegalWordFaults : Prop :=
  ∀ s : State, Running s → s.pc.toNat ≤ 0xFFE →
    legalWord (s.byteAt s.pc.toNat ++ s.byteAt (s.pc.toNat + 1)) = false →
    ∃ t, step s = .next t ∧ t.fault = some .unknownOpcode ∧ perform .step s = (t, .stepError .unknownOpcode)

/-- Rule R80: `step()` is total. Without a fault it answers a next state; with one it answers the cause and nothing changes
(rule R87, decision D13). No instruction is refused. -/
def Obligations.StepIsTotal : Prop :=
  ∀ s : State, (s.fault = none → ∃ t, step s = .next t) ∧
    (∀ c, s.fault = some c → step s = .fault c ∧ perform .step s = (s, .stepError c))

/-- Rule R86: a wait step changes nothing until a press is latched, and then completes the pending `FX0A`. -/
def Obligations.WaitStepCompletesOnPress : Prop :=
  ∀ (s : State) (x : Reg), s.fault = none → s.awaitingKey = some x →
    (s.keyEvent = none → step s = .next s) ∧
    (∀ k, s.keyEvent = some k → ∃ t, step s = .next t ∧ (t.reg x).toNat = k.val ∧ t.awaitingKey = none ∧
      t.keyEvent = none ∧ t.pc = s.pc + 2 ∧ SameRegsExcept [x] s t ∧ SameMemory s t ∧ SameStack s t ∧
      SameDisplay s t ∧ SameTimers s t ∧ (∀ q, t.key q = s.key q) ∧ SameIndex s t ∧ SameFault s t)

/-- Rule R88 (decisions D11, D12): what a step that does not fault returns. -/
def Obligations.StepReportsDisplayAndTone : Prop :=
  ∀ s t : State, step s = .next t → t.fault = none →
    ∃ changed tone, perform .step s = (t, .stepped changed tone) ∧ (tone = true ↔ 0 < t.st.toNat) ∧
      (changed = true ↔ s.awaitingKey = none ∧
        (fetchInstr s = .ok .cls ∨ ∃ x y n, fetchInstr s = .ok (.drw x y n)))

/-- Rule R88: the flag is never 0 after a cell has changed. -/
def Obligations.UnreportedStepKeepsDisplay : Prop :=
  ∀ (s t : State) (tone : Bool), perform .step s = (t, .stepped false tone) → SameDisplay s t

/-- Rule R90: a step moves a timer only by `FX15` and `FX18`, and never changes a key level. -/
def Obligations.StepMovesTimersOnlyByTimerInstructions : Prop :=
  ∀ s t : State, step s = .next t → t.fault = none →
    (∀ k, t.key k = s.key k) ∧
    (t.dt ≠ s.dt → s.awaitingKey = none ∧ ∃ x, fetchInstr s = .ok (.ldDtVx x)) ∧
    (t.st ≠ s.st → s.awaitingKey = none ∧ ∃ x, fetchInstr s = .ok (.ldStVx x))

/-- Rules R53 and R12: which instructions a step changes each storage by. -/
def Obligations.StepChangesStorageOnlyByItsInstructions : Prop :=
  ∀ s t : State, step s = .next t → t.fault = none →
    ((∃ a, t.byteAt a ≠ s.byteAt a) → s.awaitingKey = none ∧
      ∃ x, fetchInstr s = .ok (.ldB x) ∨ fetchInstr s = .ok (.storeRegs x)) ∧
    ((t.sp ≠ s.sp ∨ t.stack ≠ s.stack) → s.awaitingKey = none ∧
      (fetchInstr s = .ok .ret ∨ ∃ nnn, fetchInstr s = .ok (.call nnn))) ∧
    ((∃ c, t.cell c ≠ s.cell c) → s.awaitingKey = none ∧
      (fetchInstr s = .ok .cls ∨ ∃ x y n, fetchInstr s = .ok (.drw x y n))) ∧
    (t.i ≠ s.i → s.awaitingKey = none ∧
      ((∃ nnn, fetchInstr s = .ok (.ldI nnn)) ∨ ∃ x, fetchInstr s = .ok (.addI x) ∨ fetchInstr s = .ok (.ldF x)))

/-- Rule R131: one random byte per executed `CXNN`, none by any other instruction or by a wait step. -/
def Obligations.RandomByteDrawnOnlyByRandom : Prop :=
  ∀ s t : State, step s = .next t → t.fault = none →
    (t.draws = s.draws + 1 ∧ s.awaitingKey = none ∧ ∃ x nn, fetchInstr s = .ok (.rnd x nn)) ∨
    (t.draws = s.draws ∧ (s.awaitingKey = none → ∀ x nn, fetchInstr s ≠ .ok (.rnd x nn)))

/-! ### Faults -/

/-- Rules R200, R201, R205: a step raises a cause only where the rules say so. -/
def Obligations.FaultsOnlyWhereRaised : Prop :=
  ∀ (s t : State) (c : Fault), step s = .next t → t.fault = some c →
    s.awaitingKey = none ∧
    match c with
    | .unknownOpcode => s.pc.toNat ≤ 0xFFE ∧
        legalWord (s.byteAt s.pc.toNat ++ s.byteAt (s.pc.toNat + 1)) = false
    | .stackOverflow => s.sp.val = 16 ∧ ∃ nnn, fetchInstr s = .ok (.call nnn)
    | .stackUnderflow => s.sp.val = 0 ∧ fetchInstr s = .ok .ret
    | .addressOutOfRange => 0xFFE < s.pc.toNat ∨
        (∃ x y n, fetchInstr s = .ok (.drw x y n) ∧ 0 < n.toNat ∧ 0xFFF < s.i.toNat + n.toNat - 1) ∨
        (∃ x, fetchInstr s = .ok (.ldB x) ∧ 0xFFF < s.i.toNat + 2) ∨
        (∃ x, (fetchInstr s = .ok (.storeRegs x) ∨ fetchInstr s = .ok (.loadRegs x)) ∧ 0xFFF < s.i.toNat + x.val)
    | .fontWrite => s.i.toNat ≤ 0x04F ∧
        ∃ x, fetchInstr s = .ok (.ldB x) ∨ fetchInstr s = .ok (.storeRegs x)

/-- Rules R42, R43, R143 to R145, R161 (decisions D3, D4): where the memory instructions take a fault, for every form. -/
def Obligations.MemoryInstructionsFault : Prop :=
  ∀ (s : State) (x y : Reg) (n : BitVec 4),
    (s.i.toNat ≤ 0x04F → ∃ t, exec (.ldB x) s = .next t ∧ t.fault = some .fontWrite) ∧
    (0xFFF < s.i.toNat + 2 → ∃ t, exec (.ldB x) s = .next t ∧ t.fault = some .addressOutOfRange) ∧
    (s.i.toNat ≤ 0x04F → ∃ t, exec (.storeRegs x) s = .next t ∧ t.fault = some .fontWrite) ∧
    (0xFFF < s.i.toNat + x.val → ∃ t, exec (.storeRegs x) s = .next t ∧ t.fault = some .addressOutOfRange) ∧
    (0xFFF < s.i.toNat + x.val → ∃ t, exec (.loadRegs x) s = .next t ∧ t.fault = some .addressOutOfRange) ∧
    (0 < n.toNat → 0xFFF < s.i.toNat + n.toNat - 1 →
      ∃ t, exec (.drw x y n) s = .next t ∧ t.fault = some .addressOutOfRange)

/-- Rules R204, R206, R240: a fault stays through every transaction but `reset()`, which leaves the reset state. -/
def Obligations.OnlyResetClearsFault : Prop :=
  ∀ (s : State) (c : Fault), s.fault = some c →
    (∀ tr, tr ≠ .reset → (perform tr s).1.fault = some c) ∧ SameButDraws State.reset (perform .reset s).1

/-! ### Invariants -/

/-- The invariant holds at reset (rules R34, R35). -/
def Obligations.InvariantHoldsAtReset : Prop := Inv State.reset

/-- Every step keeps the invariant: memory in canonical form, and without a fault the rules of R35. -/
def Obligations.StepKeepsInvariant : Prop :=
  ∀ s t : State, Inv s → step s = .next t → Inv t

/-- Every transaction of the host keeps the invariant, from every state that has it. -/
def Obligations.TransactionKeepsInvariant : Prop :=
  ∀ (s : State) (tr : Transaction), Inv s → Inv (perform tr s).1

/-- Rule R35: in every reachable state without a fault. -/
def Obligations.ReachableStatesKeepStateRules : Prop :=
  ∀ s : State, Reachable s → s.fault = none → StateRules s

/-! ### Control flow -/

/-- Rule R100, with its corner case: the next fetch after a jump to `0xFFF` raises `AddressOutOfRange` (D3). -/
def Obligations.JumpSetsPc : Prop :=
  ∀ (nnn : BitVec 12) (s : State), ∃ t, exec (.jp nnn) s = .next t ∧ t.pc.toNat = nnn.toNat ∧
    SameRegsExcept [] s t ∧ OnlyRegsAndPc s t ∧
    (nnn = 0xFFF → Running s → ∃ u, step t = .next u ∧ u.fault = some .addressOutOfRange)

/-- Rule R103: the sum is not reduced, and the next fetch after a sum above `0xFFE` raises `AddressOutOfRange` (D3). -/
def Obligations.OffsetJumpSetsPc : Prop :=
  ∀ (nnn : BitVec 12) (s : State), ∃ t, exec (.jpV0 nnn) s = .next t ∧
    t.pc.toNat = nnn.toNat + (s.reg 0).toNat ∧ SameRegsExcept [] s t ∧ OnlyRegsAndPc s t ∧
    (0xFFE < nnn.toNat + (s.reg 0).toNat → Running s → ∃ u, step t = .next u ∧ u.fault = some .addressOutOfRange)

/-- Rule R101, both cases. -/
def Obligations.CallPushesAndJumps : Prop :=
  ∀ (nnn : BitVec 12) (s : State),
    (s.sp.val < 16 → ∃ t, exec (.call nnn) s = .next t ∧ t.pc.toNat = nnn.toNat ∧ t.sp.val = s.sp.val + 1 ∧
      (∀ (j : Nat) (h : j < 16), t.stack[j] = if j = s.sp.val then s.pc else s.stack[j]) ∧
      SameRegsExcept [] s t ∧ SameMemory s t ∧ SameDisplay s t ∧ SameTimers s t ∧ SameKeypad s t ∧
      SameIndex s t ∧ SameFault s t) ∧
    (s.sp.val = 16 → ∃ t, exec (.call nnn) s = .next t ∧ t.fault = some .stackOverflow)

/-- Rule R102, both cases. -/
def Obligations.ReturnPops : Prop :=
  ∀ s : State,
    (∀ h : 0 < s.sp.val, ∃ t, exec .ret s = .next t ∧ t.pc = s.stack[s.sp.val - 1] ∧ t.sp.val = s.sp.val - 1 ∧
      t.stack = s.stack ∧ SameRegsExcept [] s t ∧ SameMemory s t ∧ SameDisplay s t ∧ SameTimers s t ∧
      SameKeypad s t ∧ SameIndex s t ∧ SameFault s t) ∧
    (s.sp.val = 0 → ∃ t, exec .ret s = .next t ∧ t.fault = some .stackUnderflow)

/-- The stack round trip (95_test_vectors S5): a return with the call's entry on top of the stack comes back behind the call
and leaves `SP` as it was before it, whatever happened to the rest of the state in between. -/
def Obligations.ReturnUndoesCall : Prop :=
  ∀ (nnn : BitVec 12) (s : State) (_ : s.sp.val < 16), ∃ t, exec (.call nnn) s = .next t ∧
    ∀ u : State, u.sp = t.sp → u.stack[s.sp.val] = t.stack[s.sp.val] →
      ∃ w, exec .ret u = .next w ∧ w.pc = s.pc ∧ w.sp = s.sp

/-- Rules R104 to R107. -/
def Obligations.ConditionalSkips : Prop :=
  ∀ (x y : Reg) (nn : Byte),
    SkipsWhen (.seImm x nn) (fun s => s.reg x = nn) ∧ SkipsWhen (.sneImm x nn) (fun s => s.reg x ≠ nn) ∧
    SkipsWhen (.seReg x y) (fun s => s.reg x = s.reg y) ∧ SkipsWhen (.sneReg x y) (fun s => s.reg x ≠ s.reg y)

/-! ### Registers and arithmetic -/

/-- Rules R120 and R122: the destination takes the value, and no flag is written. -/
def Obligations.LoadsAndCopies : Prop :=
  ∀ (x y : Reg) (nn : Byte),
    SetsReg (.ldImm x nn) x (fun _ => nn) ∧ SetsReg (.ldReg x y) x (fun s => s.reg y)

/-- Rules R123 to R125, bit by bit: `VF` is neither written nor cleared unless it is the destination (decision D2). -/
def Obligations.LogicLeavesFlag : Prop :=
  ∀ (x y : Reg) (s : State), ∃ t u w, exec (.or x y) s = .next t ∧ exec (.and x y) s = .next u ∧
    exec (.xor x y) s = .next w ∧
    (∀ j, j < 8 → (t.reg x).getLsbD j = ((s.reg x).getLsbD j || (s.reg y).getLsbD j) ∧
      (u.reg x).getLsbD j = ((s.reg x).getLsbD j && (s.reg y).getLsbD j) ∧
      (w.reg x).getLsbD j = ((s.reg x).getLsbD j != (s.reg y).getLsbD j)) ∧
    (t.pc = s.pc ∧ SameRegsExcept [x] s t ∧ OnlyRegsAndPc s t) ∧
    (u.pc = s.pc ∧ SameRegsExcept [x] s u ∧ OnlyRegsAndPc s u) ∧
    (w.pc = s.pc ∧ SameRegsExcept [x] s w ∧ OnlyRegsAndPc s w)

/-- Rule R121: the sum wraps and `VF` is not written unless it is the destination. -/
def Obligations.AddImmediateWraps : Prop :=
  ∀ (x : Reg) (nn : Byte),
    SetsReg (.addImm x nn) x (fun s => BitVec.ofNat 8 (((s.reg x).toNat + nn.toNat) % 256))

/-- Rule R126, with the flag what remains when `X` is `F` (decision D6). -/
def Obligations.AddSetsCarry : Prop :=
  ∀ x y : Reg, SetsRegAndFlag (.addReg x y) x (fun s => ((s.reg x).toNat + (s.reg y).toNat) % 256)
    (fun s => if (s.reg x).toNat + (s.reg y).toNat > 255 then 1 else 0)

/-- Rules R127 and R129, with the flag what remains when `X` is `F` (decision D6). -/
def Obligations.SubtractSetsNoBorrow : Prop :=
  ∀ x y : Reg,
    SetsRegAndFlag (.sub x y) x (fun s => ((s.reg x).toNat + 256 - (s.reg y).toNat) % 256)
      (fun s => if (s.reg x).toNat ≥ (s.reg y).toNat then 1 else 0) ∧
    SetsRegAndFlag (.subn x y) x (fun s => ((s.reg y).toNat + 256 - (s.reg x).toNat) % 256)
      (fun s => if (s.reg y).toNat ≥ (s.reg x).toNat then 1 else 0)

/-- Rules R128 and R130 for every value of the ignored field (R65), with the flag what remains when `X` is `F` (decision D6). -/
def Obligations.ShiftsSetShiftedOutBit : Prop :=
  ∀ x y : Reg,
    SetsRegAndFlag (.shr x y) x (fun s => (s.reg x).toNat / 2) (fun s => (s.reg x).toNat % 2) ∧
    SetsRegAndFlag (.shl x y) x (fun s => (s.reg x).toNat * 2 % 256) (fun s => (s.reg x).toNat / 128)

/-- Rule R131: some byte AND `NN`; the byte is a free value, so nothing more is known of the result (D20, log entry 1). -/
def Obligations.RandomMasksDrawnByte : Prop :=
  ∀ (x : Reg) (nn : Byte) (s : State), ∃ t, exec (.rnd x nn) s = .next t ∧
    t.reg x = Config.randomByte s.draws &&& nn ∧ t.draws = s.draws + 1 ∧ t.pc = s.pc ∧ SameRegsExcept [x] s t ∧
    OnlyRegsAndPc s t

/-! ### Index and memory -/

/-- Rules R140 and R141: `VF` is not written. -/
def Obligations.IndexLoadAndAdd : Prop :=
  ∀ (nnn : BitVec 12) (x : Reg),
    SetsIndex (.ldI nnn) (fun _ => nnn.toNat) ∧ SetsIndex (.addI x) (fun s => (s.i.toNat + (s.reg x).toNat) % 4096)

/-- Rule R142 with the whole 8-bit value (decision D10); for a hexadecimal digit, the five bytes at `I` are its glyph. -/
def Obligations.GlyphAddress : Prop :=
  ∀ x : Reg, SetsIndex (.ldF x) (fun s => (s.reg x).toNat * 5) ∧
    ∀ s t : State, FontIntact s → (s.reg x).toNat ≤ 15 → exec (.ldF x) s = .next t →
      ∀ j, j < 5 → t.byteAt (t.i.toNat + j) = (Config.font[(s.reg x).toNat * 5 + j]?).getD 0

/-- Rule R143 where no fault is raised: the digits at `I`, `I + 1`, `I + 2`, and every other byte as before. -/
def Obligations.DecimalDigitsStored : Prop :=
  ∀ (x : Reg) (s : State), Memory.wf s.mem → 0x050 ≤ s.i.toNat → s.i.toNat + 2 ≤ 0xFFF →
    ∃ t, exec (.ldB x) s = .next t ∧ (t.byteAt s.i.toNat).toNat = (s.reg x).toNat / 100 ∧
      (t.byteAt (s.i.toNat + 1)).toNat = (s.reg x).toNat / 10 % 10 ∧
      (t.byteAt (s.i.toNat + 2)).toNat = (s.reg x).toNat % 10 ∧
      SameMemoryOutside s.i.toNat 3 s t ∧ SameDisplay s t ∧ OnlyMemoryDisplayAndRegs [] s t

/-- Rule R144 where no fault is raised: `V[j]` at `I + j` for `j` up to `X`, and every other byte as before. -/
def Obligations.RegistersStored : Prop :=
  ∀ (x : Reg) (s : State), Memory.wf s.mem → 0x050 ≤ s.i.toNat → s.i.toNat + x.val ≤ 0xFFF →
    ∃ t, exec (.storeRegs x) s = .next t ∧ (∀ r : Reg, r ≤ x → t.byteAt (s.i.toNat + r.val) = s.reg r) ∧
      SameMemoryOutside s.i.toNat (x.val + 1) s t ∧ SameDisplay s t ∧ OnlyMemoryDisplayAndRegs [] s t

/-- Rule R145 where no fault is raised: `V[j]` from `I + j` for `j` up to `X`, the registers above as before. -/
def Obligations.RegistersLoaded : Prop :=
  ∀ (x : Reg) (s : State), s.i.toNat + x.val ≤ 0xFFF →
    ∃ t, exec (.loadRegs x) s = .next t ∧
      (∀ r : Reg, t.reg r = if r ≤ x then s.byteAt (s.i.toNat + r.val) else s.reg r) ∧ t.pc = s.pc ∧ OnlyRegsAndPc s t

/-- `FX65` after `FX55` with the same `X` and `I` restores the registers, whatever changed outside memory and `I` in between. -/
def Obligations.LoadUndoesStore : Prop :=
  ∀ (x : Reg) (s : State), Memory.wf s.mem → 0x050 ≤ s.i.toNat → s.i.toNat + x.val ≤ 0xFFF →
    ∃ t, exec (.storeRegs x) s = .next t ∧ ∀ u : State, u.mem = t.mem → u.i = t.i →
      ∃ w, exec (.loadRegs x) u = .next w ∧ ∀ r : Reg, r ≤ x → w.reg r = s.reg r

/-- Rule R51 (decision D26): the bytes a step stores are the bytes the very next fetch reads. -/
def Obligations.StoreSeenByNextFetch : Prop :=
  ∀ (x : Reg) (s : State), Memory.wf s.mem → 1 ≤ x.val → 0x050 ≤ s.i.toNat → s.i.toNat + x.val ≤ 0xFFF → s.pc = s.i →
    ∃ t, exec (.storeRegs x) s = .next t ∧ fetch t = .ok (s.reg 0 ++ s.reg 1)

/-! ### Display -/

/-- Rule R160, with the step's output: `VF` is not written. -/
def Obligations.ClearDisplay : Prop :=
  ∀ s : State, (∃ t, exec .cls s = .next t ∧ (∀ c, c < 2048 → t.cell c = false) ∧ SameMemory s t ∧
      OnlyMemoryDisplayAndRegs [] s t) ∧
    (Running s → fetchInstr s = .ok .cls →
      ∃ t tone, perform .step s = (t, .stepped true tone) ∧ ∀ c, c < 2048 → t.cell c = false)

/-- Rule R161 where no fault is raised, as what happens to each cell rather than cell after cell: a cell is inverted exactly
when a sprite 1 bit lands on it, and `VF` says whether such a cell was on before (bit order: decision D18; `N = 0`: D25). -/
def Obligations.DrawInvertsSpriteCells : Prop :=
  ∀ (x y : Reg) (n : BitVec 4) (s : State), s.i.toNat + n.toNat ≤ 0x1000 →
    ∃ t, exec (.drw x y n) s = .next t ∧
      (∀ c, c < 2048 →
        (SpriteLights s (s.reg x).toNat (s.reg y).toNat n.toNat c → t.cell c = !s.cell c) ∧
        (¬SpriteLights s (s.reg x).toNat (s.reg y).toNat n.toNat c → t.cell c = s.cell c)) ∧
      ((∃ c, c < 2048 ∧ SpriteLights s (s.reg x).toNat (s.reg y).toNat n.toNat c ∧ s.cell c = true) → t.reg 15 = 1) ∧
      ((¬∃ c, c < 2048 ∧ SpriteLights s (s.reg x).toNat (s.reg y).toNat n.toNat c ∧ s.cell c = true) → t.reg 15 = 0) ∧
      SameMemory s t ∧ OnlyMemoryDisplayAndRegs [15] s t

/-- 95_test_vectors S4 (conflict C8): drawing the same sprite twice at the same coordinates leaves the display as it was. `X` and
`Y` are not `F`: with `VF` as a coordinate the first draw's flag moves the second one's place. Which cells the clause on `VF` speaks
of rests on the bit order of a sprite byte, general knowledge and not the source's (decision D18, G2; log entry 5). -/
def Obligations.DrawTwiceRestoresDisplay : Prop :=
  ∀ (x y : Reg) (n : BitVec 4) (s : State), x ≠ 15 → y ≠ 15 → s.i.toNat + n.toNat ≤ 0x1000 →
    ∃ t u, exec (.drw x y n) s = .next t ∧ exec (.drw x y n) t = .next u ∧ SameDisplay s u ∧
      ((∃ c, c < 2048 ∧ SpriteLights s (s.reg x).toNat (s.reg y).toNat n.toNat c ∧ s.cell c = false) ↔ u.reg 15 = 1)

/-! ### Keypad and timers -/

/-- Rules R170 and R171: the level of the key the low four bits select (decision D9). -/
def Obligations.KeySkips : Prop :=
  ∀ x : Reg,
    SkipsWhen (.skp x) (fun s => s.k[(s.reg x).toNat % 16] = true) ∧
    SkipsWhen (.sknp x) (fun s => s.k[(s.reg x).toNat % 16] = false)

/-- Rule R172: `FX0A` only enters the wait, and `pc` goes back to its own address (decisions D7, D8). -/
def Obligations.KeyWaitEntered : Prop :=
  ∀ (x : Reg) (s : State), ∃ t, exec (.ldVxKey x) s = .next t ∧ t.awaitingKey = some x ∧ t.keyEvent = none ∧
    t.pc + 2 = s.pc ∧ SameRegsExcept [] s t ∧ SameMemory s t ∧ SameStack s t ∧ SameDisplay s t ∧ SameTimers s t ∧
    (∀ k, t.key k = s.key k) ∧ SameIndex s t ∧ SameFault s t

/-- 95_test_vectors S9, for every register, key and address: the wait holds until a press, then delivers the key. -/
def Obligations.KeyWaitScenario : Prop :=
  ∀ (s : State) (x : Reg) (k : Key), Running s → fetchInstr s = .ok (.ldVxKey x) → s.key k = false →
    ∃ t, step s = .next t ∧ t.pc = s.pc ∧ SameRegsExcept [] s t ∧ step t = .next t ∧
      ∃ u, step (setKey t k true) = .next u ∧ (u.reg x).toNat = k.val ∧ u.pc = s.pc + 2 ∧ u.awaitingKey = none ∧
        u.keyEvent = none ∧ u.key k = true ∧ SameRegsExcept [x] s u

/-- Rules R173 and R174. -/
def Obligations.DelayTimerReadAndSet : Prop :=
  ∀ x : Reg, SetsReg (.ldVxDt x) x (fun s => s.dt) ∧
    ∀ s : State, ∃ t, exec (.ldDtVx x) s = .next t ∧ t.dt = s.reg x ∧ t.st = s.st ∧ SameMemory s t ∧
      SameDisplay s t ∧ SameRegsExcept [] s t ∧ t.pc = s.pc ∧ SameStack s t ∧ SameKeypad s t ∧ SameIndex s t ∧
      SameFault s t

/-- Rule R175, with the tone of the step that executes it (decision D12). -/
def Obligations.SoundTimerSet : Prop :=
  ∀ (x : Reg) (s : State), (∃ t, exec (.ldStVx x) s = .next t ∧ t.st = s.reg x ∧ t.dt = s.dt ∧ SameMemory s t ∧
      SameDisplay s t ∧ SameRegsExcept [] s t ∧ t.pc = s.pc ∧ SameStack s t ∧ SameKeypad s t ∧ SameIndex s t ∧
      SameFault s t) ∧
    (Running s → fetchInstr s = .ok (.ldStVx x) →
      ∃ t, perform .step s = (t, .stepped false (decide (0 < (s.reg x).toNat))) ∧ t.st = s.reg x)

/-! ### The host's transactions -/

/-- Rule R215: both timers count down to 0 and stop there, in the running and in the waiting condition; after a fault the
transaction is accepted, and all that is known is that the fault stays (rule R204). -/
def Obligations.TickCountsDown : Prop :=
  ∀ s : State, (∀ c, s.fault = some c → ∃ t, perform .tick s = (t, .nothing) ∧ t.fault = some c) ∧
  (s.fault = none → ∃ t, perform .tick s = (t, .nothing) ∧
    t.dt.toNat = s.dt.toNat - 1 ∧ t.st.toNat = s.st.toNat - 1 ∧
    SameRegsExcept [] s t ∧ t.pc = s.pc ∧ SameMemory s t ∧ SameStack s t ∧ SameDisplay s t ∧ SameKeypad s t ∧
    SameIndex s t ∧ SameFault s t)

/-- Rule R218 (the latch: decision D8): only the first press transition of a wait is latched, and only the named level moves. -/
def Obligations.KeyReportLatchesFirstPress : Prop :=
  ∀ (s : State) (k : Key) (p : Bool), s.fault = none → ∃ t, perform (.setKey k p) s = (t, .nothing) ∧
    t.key k = p ∧ (∀ q, q ≠ k → t.key q = s.key q) ∧
    (p = true → s.key k = false → s.awaitingKey ≠ none → s.keyEvent = none → t.keyEvent = some k) ∧
    ((p = false ∨ s.key k = true ∨ s.awaitingKey = none ∨ s.keyEvent ≠ none) → t.keyEvent = s.keyEvent) ∧
    t.awaitingKey = s.awaitingKey ∧ SameRegsExcept [] s t ∧ t.pc = s.pc ∧ SameMemory s t ∧ SameStack s t ∧
    SameDisplay s t ∧ SameTimers s t ∧ SameIndex s t ∧ SameFault s t

/-- Rule R242 (decision D16): a plain copy from `0x200`, or `LoadError` with nothing changed. -/
def Obligations.LoadCopiesImageOrFails : Prop :=
  ∀ (s : State) (bytes : List Byte), s.fault = none → Memory.wf s.mem →
    (3584 < bytes.length → perform (.loadProgram bytes) s = (s, .loadError)) ∧
    (bytes.length ≤ 3584 → ∃ t, perform (.loadProgram bytes) s = (t, .loaded) ∧
      (∀ (j : Nat) (h : j < bytes.length), t.byteAt (0x200 + j) = bytes[j]) ∧
      SameMemoryOutside 0x200 bytes.length s t ∧ SameDisplay s t ∧ OnlyMemoryDisplayAndRegs [] s t)

/-- Rules R34 and R240: the reset state, from every state. The font bytes are general knowledge (G1), not the source's. -/
def Obligations.ResetLeavesResetState : Prop :=
  ∀ s : State, ∃ t, perform .reset s = (t, .nothing) ∧
    (∀ r, t.reg r = 0) ∧ t.i = 0 ∧ t.pc = 0x0200 ∧ t.sp.val = 0 ∧ (∀ (j : Nat) (h : j < 16), t.stack[j] = 0) ∧
    FontIntact t ∧ (∀ a, 0x050 ≤ a → a ≤ 0xFFF → t.byteAt a = 0) ∧ (∀ c, c < 2048 → t.cell c = false) ∧
    t.dt = 0 ∧ t.st = 0 ∧ (∀ k, t.key k = false) ∧ t.awaitingKey = none ∧ t.keyEvent = none ∧ t.fault = none

/-- Rules R216 and R221: the read ports change nothing and return the level `ST > 0` and the 2048 cells. After a fault rule R204
leaves both results unspecified: that they are read there too, from the free values of that state and with no change, is the
model's choice (log entry 2, DESIGN CHOICE), not the spec's. -/
def Obligations.ReadPortsReadOnly : Prop :=
  ∀ s : State, (perform .isSoundActive s = (s, .level true) ↔ 0 < s.st.toNat) ∧
    (perform .isSoundActive s = (s, .level false) ↔ s.st.toNat = 0) ∧
    ∃ fb, perform .framebuffer s = (s, .cells fb) ∧
      ∀ x y : Nat, x < 64 → ∀ h : y < 32, fb[y].getLsbD x = s.cell (y * 64 + x)

/-- Rule R243: after reset and a successful load, the first step fetches the image's first two bytes. -/
def Obligations.FirstFetchReadsImage : Prop :=
  ∀ (s : State) (b₀ b₁ : Byte) (rest : List Byte), rest.length + 2 ≤ 3584 →
    let t := performAll [.reset, .loadProgram (b₀ :: b₁ :: rest)] s
    Running t ∧ t.pc = 0x0200 ∧ fetch t = .ok (b₀ ++ b₁)

/-- Rule R252 (decision D22): at the idle point a step leaves all state unchanged. -/
def Obligations.IdlePointIsFixed : Prop :=
  ∀ s : State, Idle s → step s = .next s
end

