-- ==== Sys2Proof/Laws/Encoding.lean ====
section
/-! SUPPORT. The fields of an encoded word, format by format (rules R61, R62), and the bytes of a word. -/

namespace Sys2Proof

theorem regField_toFin (x : Reg) : (regField x).toFin = x := by
  apply Fin.ext
  simp only [regField, BitVec.toFin_ofNat, Fin.val_ofNat]
  exact Nat.mod_eq_of_lt x.isLt

theorem regField_of_toFin (b : BitVec 4) : regField b.toFin = b := by
  simp [regField]

/-! Bit `i` of a word, format by format. -/

theorem getLsbD_wordNNN (t : BitVec 4) (nnn : BitVec 12) (i : Nat) :
    (wordNNN t nnn).getLsbD i = if i < 12 then nnn.getLsbD i else t.getLsbD (i - 12) :=
  BitVec.getLsbD_append

theorem getLsbD_wordXNN (t : BitVec 4) (x : Reg) (nn : Byte) (i : Nat) :
    (wordXNN t x nn).getLsbD i =
      if i < 8 then nn.getLsbD i else if i < 12 then (regField x).getLsbD (i - 8) else t.getLsbD (i - 12) := by
  refine (BitVec.getLsbD_append (x := t) (y := regField x ++ nn)).trans ?_
  rw [BitVec.getLsbD_append]
  grind

theorem getLsbD_wordXYN (t : BitVec 4) (x y : Reg) (n : BitVec 4) (i : Nat) :
    (wordXYN t x y n).getLsbD i =
      if i < 4 then n.getLsbD i else if i < 8 then (regField y).getLsbD (i - 4)
      else if i < 12 then (regField x).getLsbD (i - 8) else t.getLsbD (i - 12) := by
  refine (BitVec.getLsbD_append (x := t) (y := regField x ++ (regField y ++ n))).trans ?_
  rw [BitVec.getLsbD_append, BitVec.getLsbD_append]
  grind

@[simp] theorem fieldT_wordNNN (t : BitVec 4) (nnn : BitVec 12) : fieldT (wordNNN t nnn) = t := by
  apply BitVec.eq_of_getLsbD_eq
  intro i hi
  rw [fieldT, BitVec.getLsbD_extractLsb', getLsbD_wordNNN]
  grind

@[simp] theorem fieldNNN_wordNNN (t : BitVec 4) (nnn : BitVec 12) : fieldNNN (wordNNN t nnn) = nnn := by
  apply BitVec.eq_of_getLsbD_eq
  intro i hi
  rw [fieldNNN, BitVec.getLsbD_extractLsb', getLsbD_wordNNN]
  grind

@[simp] theorem fieldT_wordXNN (t : BitVec 4) (x : Reg) (nn : Byte) : fieldT (wordXNN t x nn) = t := by
  apply BitVec.eq_of_getLsbD_eq
  intro i hi
  rw [fieldT, BitVec.getLsbD_extractLsb', getLsbD_wordXNN]
  grind

@[simp] theorem fieldX_wordXNN (t : BitVec 4) (x : Reg) (nn : Byte) : fieldX (wordXNN t x nn) = x := by
  rw [fieldX, ← regField_toFin x]
  congr 1
  apply BitVec.eq_of_getLsbD_eq
  intro i hi
  rw [regField_toFin, BitVec.getLsbD_extractLsb', getLsbD_wordXNN]
  grind

@[simp] theorem fieldNN_wordXNN (t : BitVec 4) (x : Reg) (nn : Byte) : fieldNN (wordXNN t x nn) = nn := by
  apply BitVec.eq_of_getLsbD_eq
  intro i hi
  rw [fieldNN, BitVec.getLsbD_extractLsb', getLsbD_wordXNN]
  grind

@[simp] theorem fieldT_wordXYN (t : BitVec 4) (x y : Reg) (n : BitVec 4) : fieldT (wordXYN t x y n) = t := by
  apply BitVec.eq_of_getLsbD_eq
  intro i hi
  rw [fieldT, BitVec.getLsbD_extractLsb', getLsbD_wordXYN]
  grind

@[simp] theorem fieldX_wordXYN (t : BitVec 4) (x y : Reg) (n : BitVec 4) : fieldX (wordXYN t x y n) = x := by
  rw [fieldX, ← regField_toFin x]
  congr 1
  apply BitVec.eq_of_getLsbD_eq
  intro i hi
  rw [regField_toFin, BitVec.getLsbD_extractLsb', getLsbD_wordXYN]
  grind

@[simp] theorem fieldY_wordXYN (t : BitVec 4) (x y : Reg) (n : BitVec 4) : fieldY (wordXYN t x y n) = y := by
  rw [fieldY, ← regField_toFin y]
  congr 1
  apply BitVec.eq_of_getLsbD_eq
  intro i hi
  rw [regField_toFin, BitVec.getLsbD_extractLsb', getLsbD_wordXYN]
  grind

@[simp] theorem fieldN_wordXYN (t : BitVec 4) (x y : Reg) (n : BitVec 4) : fieldN (wordXYN t x y n) = n := by
  apply BitVec.eq_of_getLsbD_eq
  intro i hi
  rw [fieldN, BitVec.getLsbD_extractLsb', getLsbD_wordXYN]
  grind

/-! A word is its fields, in each format. -/

theorem wordNNN_fields (op : Word) : wordNNN (fieldT op) (fieldNNN op) = op := by
  apply BitVec.eq_of_getLsbD_eq
  intro i hi
  rw [getLsbD_wordNNN, fieldT, fieldNNN, BitVec.getLsbD_extractLsb', BitVec.getLsbD_extractLsb']
  grind

theorem wordXNN_fields (op : Word) : wordXNN (fieldT op) (fieldX op) (fieldNN op) = op := by
  apply BitVec.eq_of_getLsbD_eq
  intro i hi
  rw [getLsbD_wordXNN, fieldT, fieldX, fieldNN, regField_of_toFin, BitVec.getLsbD_extractLsb',
    BitVec.getLsbD_extractLsb', BitVec.getLsbD_extractLsb']
  grind

theorem wordXYN_fields (op : Word) : wordXYN (fieldT op) (fieldX op) (fieldY op) (fieldN op) = op := by
  apply BitVec.eq_of_getLsbD_eq
  intro i hi
  rw [getLsbD_wordXYN, fieldT, fieldX, fieldY, fieldN, regField_of_toFin, regField_of_toFin,
    BitVec.getLsbD_extractLsb', BitVec.getLsbD_extractLsb', BitVec.getLsbD_extractLsb', BitVec.getLsbD_extractLsb']
  grind

theorem getLsbD_wordOfBytes (hi lo : Byte) (i : Nat) :
    (wordOfBytes hi lo).getLsbD i = if i < 8 then lo.getLsbD i else hi.getLsbD (i - 8) :=
  BitVec.getLsbD_append

/-- A word is the two bytes it is stored as. -/
@[simp] theorem wordOfBytes_highByte_lowByte (op : Word) : wordOfBytes (highByte op) (lowByte op) = op := by
  apply BitVec.eq_of_getLsbD_eq
  intro i hi
  rw [getLsbD_wordOfBytes, highByte, lowByte, BitVec.getLsbD_extractLsb', BitVec.getLsbD_extractLsb']
  grind

end Sys2Proof
end

