-- ==== Sys2Proof/Laws/Memory.lean ====
section
/-! SUPPORT. Memory as data: read after write, and that every memory operation keeps the canonical form. -/

namespace Sys2Proof.Machine

theorem Memory.read_cons_self (a : Nat) (b : Byte) (m : List Host.Cell) (h : ∀ c ∈ m, a < c.1) :
    Memory.read (Memory.cons a b m) a = b := by
  unfold Memory.cons
  split
  · rename_i hb
    have : ∀ m : List Host.Cell, (∀ c ∈ m, a < c.1) → Memory.read m a = Memory.unlisted a := by
      intro m
      induction m with
      | nil => intro _; rfl
      | cons c m ih =>
        intro h
        have hc := h c (by simp)
        rw [Memory.read, if_neg (by omega), ih fun d hd => h d (by simp [hd])]
    rw [this m h, hb]
  · simp [Memory.read]

theorem Memory.read_cons_other {a a' : Nat} (b : Byte) (m : List Host.Cell) (h : a' ≠ a) :
    Memory.read (Memory.cons a b m) a' = Memory.read m a' := by
  unfold Memory.cons
  split
  · rfl
  · simp [Memory.read, h]

/-- A list of rising cells, below every address of which `a` lies once `a` lies below the first. -/
theorem Memory.lt_of_lt_head {a : Nat} {c : Host.Cell} {m : List Host.Cell}
    (hs : (c :: m).Pairwise fun c d => c.1 < d.1) (h : a ≤ c.1) : ∀ d ∈ m, a < d.1 := by
  intro d hd
  have := List.rel_of_pairwise_cons hs hd
  omega

/-- A read gives what the latest write to the same address stored. -/
theorem Memory.read_write_same (m : List Host.Cell) (hs : m.Pairwise fun c d => c.1 < d.1) (a : Nat) (b : Byte) :
    Memory.read (Memory.write m a b) a = b := by
  induction m with
  | nil => exact Memory.read_cons_self a b [] (by simp)
  | cons c m ih =>
    unfold Memory.write
    split
    · rename_i h
      apply Memory.read_cons_self
      intro d hd
      rcases List.mem_cons.mp hd with rfl | hd
      · exact h
      · exact Memory.lt_of_lt_head hs (by omega) d hd
    · split
      · rename_i h
        exact Memory.read_cons_self a b m (Memory.lt_of_lt_head hs (by omega))
      · rename_i h1 h2
        rw [Memory.read, if_neg h2, ih hs.of_cons]

/-- A write leaves every other address alone. -/
theorem Memory.read_write_other (m : List Host.Cell) {a a' : Nat} (b : Byte) (h : a' ≠ a) :
    Memory.read (Memory.write m a b) a' = Memory.read m a' := by
  induction m with
  | nil => exact Memory.read_cons_other b [] h
  | cons c m ih =>
    unfold Memory.write
    split
    · exact Memory.read_cons_other b _ h
    · split
      · rename_i h2
        rw [Memory.read_cons_other b m h, Memory.read, if_neg (by omega)]
      · rw [Memory.read, Memory.read, ih]

theorem Memory.mem_cons {a : Nat} {b : Byte} {m : List Host.Cell} {d : Host.Cell}
    (h : d ∈ Memory.cons a b m) : (d = (a, b) ∧ b ≠ Memory.unlisted a) ∨ d ∈ m := by
  unfold Memory.cons at h
  split at h
  · exact .inr h
  · rcases List.mem_cons.mp h with rfl | h
    · exact .inl ⟨rfl, ‹_›⟩
    · exact .inr h

theorem Memory.mem_write {m : List Host.Cell} {a : Nat} {b : Byte} {d : Host.Cell}
    (h : d ∈ Memory.write m a b) : (d = (a, b) ∧ b ≠ Memory.unlisted a) ∨ d ∈ m := by
  induction m with
  | nil => exact Memory.mem_cons h
  | cons c m ih =>
    unfold Memory.write at h
    split at h
    · exact Memory.mem_cons h
    · split at h
      · rcases Memory.mem_cons h with h | h
        · exact .inl h
        · exact .inr (by simp [h])
      · rcases List.mem_cons.mp h with rfl | h
        · exact .inr (by simp)
        · rcases ih h with h | h
          · exact .inl h
          · exact .inr (by simp [h])

theorem Memory.pairwise_cons {a : Nat} {b : Byte} {m : List Host.Cell}
    (hs : m.Pairwise fun c d => c.1 < d.1) (h : ∀ d ∈ m, a < d.1) :
    (Memory.cons a b m).Pairwise fun c d => c.1 < d.1 := by
  unfold Memory.cons
  split
  · exact hs
  · exact List.pairwise_cons.mpr ⟨h, hs⟩

theorem Memory.pairwise_write {m : List Host.Cell} (hs : m.Pairwise fun c d => c.1 < d.1) (a : Nat) (b : Byte) :
    (Memory.write m a b).Pairwise fun c d => c.1 < d.1 := by
  induction m with
  | nil => exact Memory.pairwise_cons hs (by simp)
  | cons c m ih =>
    unfold Memory.write
    split
    · rename_i h
      apply Memory.pairwise_cons hs
      intro d hd
      rcases List.mem_cons.mp hd with rfl | hd
      · exact h
      · exact Memory.lt_of_lt_head hs (by omega) d hd
    · split
      · exact Memory.pairwise_cons hs.of_cons (Memory.lt_of_lt_head hs (by omega))
      · apply List.pairwise_cons.mpr ⟨_, ih hs.of_cons⟩
        intro d hd
        rcases Memory.mem_write hd with ⟨rfl, _⟩ | hd
        · show c.1 < a
          omega
        · exact List.rel_of_pairwise_cons hs hd

/-- A write inside memory keeps the canonical form. -/
theorem Memory.wf_write {m : List Host.Cell} (h : Memory.wf m) {a : Nat} (ha : a < Config.memSize) (b : Byte) :
    Memory.wf (Memory.write m a b) := by
  refine ⟨Memory.pairwise_write h.1 a b, fun d hd => ?_⟩
  rcases Memory.mem_write hd with ⟨rfl, hb⟩ | hd
  · exact ⟨ha, hb⟩
  · exact h.2 d hd

/-- A run of writes inside memory keeps the canonical form. -/
theorem Memory.wf_writeAll {m : List Host.Cell} (h : Memory.wf m) (bs : List Byte) {a : Nat}
    (ha : a + bs.length ≤ Config.memSize) : Memory.wf (Memory.writeAll m a bs) := by
  induction bs generalizing m a with
  | nil => exact h
  | cons b bs ih =>
    simp only [List.length_cons] at ha
    exact ih (Memory.wf_write h (by omega) b) (by omega)

/-- A run of writes leaves every address outside it alone. -/
theorem Memory.read_writeAll_outside (m : List Host.Cell) (bs : List Byte) {a c : Nat}
    (h : c < a ∨ a + bs.length ≤ c) : Memory.read (Memory.writeAll m a bs) c = Memory.read m c := by
  induction bs generalizing m a with
  | nil => rfl
  | cons b bs ih =>
    simp only [List.length_cons] at h
    rw [Memory.writeAll, ih _ (by omega), Memory.read_write_other _ _ (by omega)]

/-- A run of writes stores its bytes in ascending order. -/
theorem Memory.read_writeAll_inside (m : List Host.Cell) (hs : m.Pairwise fun c d => c.1 < d.1) (bs : List Byte)
    {a j : Nat} (h : j < bs.length) : Memory.read (Memory.writeAll m a bs) (a + j) = bs[j] := by
  induction bs generalizing m a j with
  | nil => simp at h
  | cons b bs ih =>
    cases j with
    | zero =>
      rw [Memory.writeAll, Memory.read_writeAll_outside _ _ (by omega)]
      exact Memory.read_write_same m hs a b
    | succ j =>
      have h' : j < bs.length := by simpa using h
      rw [Memory.writeAll, show a + (j + 1) = a + 1 + j by omega, ih _ (Memory.pairwise_write hs a b) h']
      rfl

/-- The cells a contents function lists. -/
theorem Memory.pairwise_ofContents (f : Nat → Byte) (n k : Nat) :
    ((List.range' k n).filterMap fun a => if f a = Memory.unlisted a then none else some (a, f a)).Pairwise
      fun (c d : Host.Cell) => c.1 < d.1 := by
  refine List.pairwise_filterMap.mpr ((List.pairwise_lt_range' (s := k) (n := n)).imp ?_)
  intro a b hab c hc d hd
  split at hc
  · cases hc
  · split at hd
    · cases hd
    · cases hc
      cases hd
      exact hab

theorem Memory.read_filterMap_range' (f : Nat → Byte) (n k a : Nat) :
    Memory.read ((List.range' k n).filterMap fun a => if f a = Memory.unlisted a then none else some (a, f a)) a =
      if k ≤ a ∧ a < k + n then f a else Memory.unlisted a := by
  induction n generalizing k with
  | zero => simp [Memory.read, show ¬(k ≤ a ∧ a < k) by omega]
  | succ n ih =>
    rw [List.range'_succ, List.filterMap_cons]
    by_cases hk : f k = Memory.unlisted k
    · simp only [hk, if_true, ih]
      by_cases ha : a = k
      · subst ha
        simp [hk, show ¬(a + 1 ≤ a) by omega]
      · congr 1
        simp only [eq_iff_iff]
        omega
    · simp only [hk, if_false, Memory.read, ih]
      by_cases ha : a = k
      · subst ha
        simp
      · rw [if_neg ha]
        congr 1
        simp only [eq_iff_iff]
        omega

/-- The memory of given contents reads as those contents, inside memory. -/
theorem Memory.read_ofContents (f : Nat → Byte) {a : Nat} (h : a < Config.memSize) :
    Memory.read (Memory.ofContents f) a = f a := by
  rw [Memory.ofContents, List.range_eq_range', Memory.read_filterMap_range', if_pos (by omega)]

/-- The memory of any contents is in canonical form. -/
theorem Memory.wf_ofContents (f : Nat → Byte) : Memory.wf (Memory.ofContents f) := by
  refine ⟨?_, fun c hc => ?_⟩
  · rw [Memory.ofContents, List.range_eq_range']
    exact Memory.pairwise_ofContents f _ _
  · obtain ⟨a, ha, hc⟩ := List.mem_filterMap.mp hc
    split at hc
    · cases hc
    · cases hc
      exact ⟨List.mem_range.mp ha, ‹_›⟩

/-- Reading a memory that lists nothing. -/
@[simp] theorem Memory.read_nil (a : Nat) : Memory.read [] a = Memory.unlisted a := rfl

/-- The reset memory is in canonical form. -/
theorem Memory.wf_reset : Memory.wf State.reset.mem := by decide

end Sys2Proof.Machine
end

