-- ==== Sys2Proof/Laws/State.lean ====
section
/-! SUPPORT. One lemma per field per update of State: each says what the update does to that field. -/

namespace Sys2Proof.Machine

/-! ### setReg -/

@[simp] theorem State.setReg_v (s : State) (r : Reg) (b : Byte) : (s.setReg r b).v = s.v.set r.val b := rfl
@[simp] theorem State.setReg_i (s : State) (r : Reg) (b : Byte) : (s.setReg r b).i = s.i := rfl
@[simp] theorem State.setReg_pc (s : State) (r : Reg) (b : Byte) : (s.setReg r b).pc = s.pc := rfl
@[simp] theorem State.setReg_stack (s : State) (r : Reg) (b : Byte) : (s.setReg r b).stack = s.stack := rfl
@[simp] theorem State.setReg_sp (s : State) (r : Reg) (b : Byte) : (s.setReg r b).sp = s.sp := rfl
@[simp] theorem State.setReg_mem (s : State) (r : Reg) (b : Byte) : (s.setReg r b).mem = s.mem := rfl
@[simp] theorem State.setReg_fb (s : State) (r : Reg) (b : Byte) : (s.setReg r b).fb = s.fb := rfl
@[simp] theorem State.setReg_dt (s : State) (r : Reg) (b : Byte) : (s.setReg r b).dt = s.dt := rfl
@[simp] theorem State.setReg_st (s : State) (r : Reg) (b : Byte) : (s.setReg r b).st = s.st := rfl
@[simp] theorem State.setReg_k (s : State) (r : Reg) (b : Byte) : (s.setReg r b).k = s.k := rfl
@[simp] theorem State.setReg_awaitingKey (s : State) (r : Reg) (b : Byte) : (s.setReg r b).awaitingKey = s.awaitingKey := rfl
@[simp] theorem State.setReg_keyEvent (s : State) (r : Reg) (b : Byte) : (s.setReg r b).keyEvent = s.keyEvent := rfl
@[simp] theorem State.setReg_fault (s : State) (r : Reg) (b : Byte) : (s.setReg r b).fault = s.fault := rfl
@[simp] theorem State.setReg_draws (s : State) (r : Reg) (b : Byte) : (s.setReg r b).draws = s.draws := rfl

/-! ### setRegs -/

@[simp] theorem State.setRegs_v (s : State) (bytes : List Byte) : (s.setRegs bytes).v = Vector.ofFn fun r => (bytes[r.val]?).getD (s.reg r) := rfl
@[simp] theorem State.setRegs_i (s : State) (bytes : List Byte) : (s.setRegs bytes).i = s.i := rfl
@[simp] theorem State.setRegs_pc (s : State) (bytes : List Byte) : (s.setRegs bytes).pc = s.pc := rfl
@[simp] theorem State.setRegs_stack (s : State) (bytes : List Byte) : (s.setRegs bytes).stack = s.stack := rfl
@[simp] theorem State.setRegs_sp (s : State) (bytes : List Byte) : (s.setRegs bytes).sp = s.sp := rfl
@[simp] theorem State.setRegs_mem (s : State) (bytes : List Byte) : (s.setRegs bytes).mem = s.mem := rfl
@[simp] theorem State.setRegs_fb (s : State) (bytes : List Byte) : (s.setRegs bytes).fb = s.fb := rfl
@[simp] theorem State.setRegs_dt (s : State) (bytes : List Byte) : (s.setRegs bytes).dt = s.dt := rfl
@[simp] theorem State.setRegs_st (s : State) (bytes : List Byte) : (s.setRegs bytes).st = s.st := rfl
@[simp] theorem State.setRegs_k (s : State) (bytes : List Byte) : (s.setRegs bytes).k = s.k := rfl
@[simp] theorem State.setRegs_awaitingKey (s : State) (bytes : List Byte) : (s.setRegs bytes).awaitingKey = s.awaitingKey := rfl
@[simp] theorem State.setRegs_keyEvent (s : State) (bytes : List Byte) : (s.setRegs bytes).keyEvent = s.keyEvent := rfl
@[simp] theorem State.setRegs_fault (s : State) (bytes : List Byte) : (s.setRegs bytes).fault = s.fault := rfl
@[simp] theorem State.setRegs_draws (s : State) (bytes : List Byte) : (s.setRegs bytes).draws = s.draws := rfl

/-! ### setI -/

@[simp] theorem State.setI_v (s : State) (w : Word) : (s.setI w).v = s.v := rfl
@[simp] theorem State.setI_i (s : State) (w : Word) : (s.setI w).i = w := rfl
@[simp] theorem State.setI_pc (s : State) (w : Word) : (s.setI w).pc = s.pc := rfl
@[simp] theorem State.setI_stack (s : State) (w : Word) : (s.setI w).stack = s.stack := rfl
@[simp] theorem State.setI_sp (s : State) (w : Word) : (s.setI w).sp = s.sp := rfl
@[simp] theorem State.setI_mem (s : State) (w : Word) : (s.setI w).mem = s.mem := rfl
@[simp] theorem State.setI_fb (s : State) (w : Word) : (s.setI w).fb = s.fb := rfl
@[simp] theorem State.setI_dt (s : State) (w : Word) : (s.setI w).dt = s.dt := rfl
@[simp] theorem State.setI_st (s : State) (w : Word) : (s.setI w).st = s.st := rfl
@[simp] theorem State.setI_k (s : State) (w : Word) : (s.setI w).k = s.k := rfl
@[simp] theorem State.setI_awaitingKey (s : State) (w : Word) : (s.setI w).awaitingKey = s.awaitingKey := rfl
@[simp] theorem State.setI_keyEvent (s : State) (w : Word) : (s.setI w).keyEvent = s.keyEvent := rfl
@[simp] theorem State.setI_fault (s : State) (w : Word) : (s.setI w).fault = s.fault := rfl
@[simp] theorem State.setI_draws (s : State) (w : Word) : (s.setI w).draws = s.draws := rfl

/-! ### setPc -/

@[simp] theorem State.setPc_v (s : State) (w : Word) : (s.setPc w).v = s.v := rfl
@[simp] theorem State.setPc_i (s : State) (w : Word) : (s.setPc w).i = s.i := rfl
@[simp] theorem State.setPc_pc (s : State) (w : Word) : (s.setPc w).pc = w := rfl
@[simp] theorem State.setPc_stack (s : State) (w : Word) : (s.setPc w).stack = s.stack := rfl
@[simp] theorem State.setPc_sp (s : State) (w : Word) : (s.setPc w).sp = s.sp := rfl
@[simp] theorem State.setPc_mem (s : State) (w : Word) : (s.setPc w).mem = s.mem := rfl
@[simp] theorem State.setPc_fb (s : State) (w : Word) : (s.setPc w).fb = s.fb := rfl
@[simp] theorem State.setPc_dt (s : State) (w : Word) : (s.setPc w).dt = s.dt := rfl
@[simp] theorem State.setPc_st (s : State) (w : Word) : (s.setPc w).st = s.st := rfl
@[simp] theorem State.setPc_k (s : State) (w : Word) : (s.setPc w).k = s.k := rfl
@[simp] theorem State.setPc_awaitingKey (s : State) (w : Word) : (s.setPc w).awaitingKey = s.awaitingKey := rfl
@[simp] theorem State.setPc_keyEvent (s : State) (w : Word) : (s.setPc w).keyEvent = s.keyEvent := rfl
@[simp] theorem State.setPc_fault (s : State) (w : Word) : (s.setPc w).fault = s.fault := rfl
@[simp] theorem State.setPc_draws (s : State) (w : Word) : (s.setPc w).draws = s.draws := rfl

/-! ### setDt -/

@[simp] theorem State.setDt_v (s : State) (b : Byte) : (s.setDt b).v = s.v := rfl
@[simp] theorem State.setDt_i (s : State) (b : Byte) : (s.setDt b).i = s.i := rfl
@[simp] theorem State.setDt_pc (s : State) (b : Byte) : (s.setDt b).pc = s.pc := rfl
@[simp] theorem State.setDt_stack (s : State) (b : Byte) : (s.setDt b).stack = s.stack := rfl
@[simp] theorem State.setDt_sp (s : State) (b : Byte) : (s.setDt b).sp = s.sp := rfl
@[simp] theorem State.setDt_mem (s : State) (b : Byte) : (s.setDt b).mem = s.mem := rfl
@[simp] theorem State.setDt_fb (s : State) (b : Byte) : (s.setDt b).fb = s.fb := rfl
@[simp] theorem State.setDt_dt (s : State) (b : Byte) : (s.setDt b).dt = b := rfl
@[simp] theorem State.setDt_st (s : State) (b : Byte) : (s.setDt b).st = s.st := rfl
@[simp] theorem State.setDt_k (s : State) (b : Byte) : (s.setDt b).k = s.k := rfl
@[simp] theorem State.setDt_awaitingKey (s : State) (b : Byte) : (s.setDt b).awaitingKey = s.awaitingKey := rfl
@[simp] theorem State.setDt_keyEvent (s : State) (b : Byte) : (s.setDt b).keyEvent = s.keyEvent := rfl
@[simp] theorem State.setDt_fault (s : State) (b : Byte) : (s.setDt b).fault = s.fault := rfl
@[simp] theorem State.setDt_draws (s : State) (b : Byte) : (s.setDt b).draws = s.draws := rfl

/-! ### setSt -/

@[simp] theorem State.setSt_v (s : State) (b : Byte) : (s.setSt b).v = s.v := rfl
@[simp] theorem State.setSt_i (s : State) (b : Byte) : (s.setSt b).i = s.i := rfl
@[simp] theorem State.setSt_pc (s : State) (b : Byte) : (s.setSt b).pc = s.pc := rfl
@[simp] theorem State.setSt_stack (s : State) (b : Byte) : (s.setSt b).stack = s.stack := rfl
@[simp] theorem State.setSt_sp (s : State) (b : Byte) : (s.setSt b).sp = s.sp := rfl
@[simp] theorem State.setSt_mem (s : State) (b : Byte) : (s.setSt b).mem = s.mem := rfl
@[simp] theorem State.setSt_fb (s : State) (b : Byte) : (s.setSt b).fb = s.fb := rfl
@[simp] theorem State.setSt_dt (s : State) (b : Byte) : (s.setSt b).dt = s.dt := rfl
@[simp] theorem State.setSt_st (s : State) (b : Byte) : (s.setSt b).st = b := rfl
@[simp] theorem State.setSt_k (s : State) (b : Byte) : (s.setSt b).k = s.k := rfl
@[simp] theorem State.setSt_awaitingKey (s : State) (b : Byte) : (s.setSt b).awaitingKey = s.awaitingKey := rfl
@[simp] theorem State.setSt_keyEvent (s : State) (b : Byte) : (s.setSt b).keyEvent = s.keyEvent := rfl
@[simp] theorem State.setSt_fault (s : State) (b : Byte) : (s.setSt b).fault = s.fault := rfl
@[simp] theorem State.setSt_draws (s : State) (b : Byte) : (s.setSt b).draws = s.draws := rfl

/-! ### setFb -/

@[simp] theorem State.setFb_v (s : State) (fb : Vector (BitVec 64) 32) : (s.setFb fb).v = s.v := rfl
@[simp] theorem State.setFb_i (s : State) (fb : Vector (BitVec 64) 32) : (s.setFb fb).i = s.i := rfl
@[simp] theorem State.setFb_pc (s : State) (fb : Vector (BitVec 64) 32) : (s.setFb fb).pc = s.pc := rfl
@[simp] theorem State.setFb_stack (s : State) (fb : Vector (BitVec 64) 32) : (s.setFb fb).stack = s.stack := rfl
@[simp] theorem State.setFb_sp (s : State) (fb : Vector (BitVec 64) 32) : (s.setFb fb).sp = s.sp := rfl
@[simp] theorem State.setFb_mem (s : State) (fb : Vector (BitVec 64) 32) : (s.setFb fb).mem = s.mem := rfl
@[simp] theorem State.setFb_fb (s : State) (fb : Vector (BitVec 64) 32) : (s.setFb fb).fb = fb := rfl
@[simp] theorem State.setFb_dt (s : State) (fb : Vector (BitVec 64) 32) : (s.setFb fb).dt = s.dt := rfl
@[simp] theorem State.setFb_st (s : State) (fb : Vector (BitVec 64) 32) : (s.setFb fb).st = s.st := rfl
@[simp] theorem State.setFb_k (s : State) (fb : Vector (BitVec 64) 32) : (s.setFb fb).k = s.k := rfl
@[simp] theorem State.setFb_awaitingKey (s : State) (fb : Vector (BitVec 64) 32) : (s.setFb fb).awaitingKey = s.awaitingKey := rfl
@[simp] theorem State.setFb_keyEvent (s : State) (fb : Vector (BitVec 64) 32) : (s.setFb fb).keyEvent = s.keyEvent := rfl
@[simp] theorem State.setFb_fault (s : State) (fb : Vector (BitVec 64) 32) : (s.setFb fb).fault = s.fault := rfl
@[simp] theorem State.setFb_draws (s : State) (fb : Vector (BitVec 64) 32) : (s.setFb fb).draws = s.draws := rfl

/-! ### setMem -/

@[simp] theorem State.setMem_v (s : State) (m : List Host.Cell) : (s.setMem m).v = s.v := rfl
@[simp] theorem State.setMem_i (s : State) (m : List Host.Cell) : (s.setMem m).i = s.i := rfl
@[simp] theorem State.setMem_pc (s : State) (m : List Host.Cell) : (s.setMem m).pc = s.pc := rfl
@[simp] theorem State.setMem_stack (s : State) (m : List Host.Cell) : (s.setMem m).stack = s.stack := rfl
@[simp] theorem State.setMem_sp (s : State) (m : List Host.Cell) : (s.setMem m).sp = s.sp := rfl
@[simp] theorem State.setMem_mem (s : State) (m : List Host.Cell) : (s.setMem m).mem = m := rfl
@[simp] theorem State.setMem_fb (s : State) (m : List Host.Cell) : (s.setMem m).fb = s.fb := rfl
@[simp] theorem State.setMem_dt (s : State) (m : List Host.Cell) : (s.setMem m).dt = s.dt := rfl
@[simp] theorem State.setMem_st (s : State) (m : List Host.Cell) : (s.setMem m).st = s.st := rfl
@[simp] theorem State.setMem_k (s : State) (m : List Host.Cell) : (s.setMem m).k = s.k := rfl
@[simp] theorem State.setMem_awaitingKey (s : State) (m : List Host.Cell) : (s.setMem m).awaitingKey = s.awaitingKey := rfl
@[simp] theorem State.setMem_keyEvent (s : State) (m : List Host.Cell) : (s.setMem m).keyEvent = s.keyEvent := rfl
@[simp] theorem State.setMem_fault (s : State) (m : List Host.Cell) : (s.setMem m).fault = s.fault := rfl
@[simp] theorem State.setMem_draws (s : State) (m : List Host.Cell) : (s.setMem m).draws = s.draws := rfl

/-! ### setKeyLevel -/

@[simp] theorem State.setKeyLevel_v (s : State) (k : Key) (p : Bool) : (s.setKeyLevel k p).v = s.v := rfl
@[simp] theorem State.setKeyLevel_i (s : State) (k : Key) (p : Bool) : (s.setKeyLevel k p).i = s.i := rfl
@[simp] theorem State.setKeyLevel_pc (s : State) (k : Key) (p : Bool) : (s.setKeyLevel k p).pc = s.pc := rfl
@[simp] theorem State.setKeyLevel_stack (s : State) (k : Key) (p : Bool) : (s.setKeyLevel k p).stack = s.stack := rfl
@[simp] theorem State.setKeyLevel_sp (s : State) (k : Key) (p : Bool) : (s.setKeyLevel k p).sp = s.sp := rfl
@[simp] theorem State.setKeyLevel_mem (s : State) (k : Key) (p : Bool) : (s.setKeyLevel k p).mem = s.mem := rfl
@[simp] theorem State.setKeyLevel_fb (s : State) (k : Key) (p : Bool) : (s.setKeyLevel k p).fb = s.fb := rfl
@[simp] theorem State.setKeyLevel_dt (s : State) (k : Key) (p : Bool) : (s.setKeyLevel k p).dt = s.dt := rfl
@[simp] theorem State.setKeyLevel_st (s : State) (k : Key) (p : Bool) : (s.setKeyLevel k p).st = s.st := rfl
@[simp] theorem State.setKeyLevel_k (s : State) (k : Key) (p : Bool) : (s.setKeyLevel k p).k = s.k.set k.val p := rfl
@[simp] theorem State.setKeyLevel_awaitingKey (s : State) (k : Key) (p : Bool) : (s.setKeyLevel k p).awaitingKey = s.awaitingKey := rfl
@[simp] theorem State.setKeyLevel_keyEvent (s : State) (k : Key) (p : Bool) : (s.setKeyLevel k p).keyEvent = s.keyEvent := rfl
@[simp] theorem State.setKeyLevel_fault (s : State) (k : Key) (p : Bool) : (s.setKeyLevel k p).fault = s.fault := rfl
@[simp] theorem State.setKeyLevel_draws (s : State) (k : Key) (p : Bool) : (s.setKeyLevel k p).draws = s.draws := rfl

/-! ### await -/

@[simp] theorem State.await_v (s : State) (x : Reg) : (s.await x).v = s.v := rfl
@[simp] theorem State.await_i (s : State) (x : Reg) : (s.await x).i = s.i := rfl
@[simp] theorem State.await_pc (s : State) (x : Reg) : (s.await x).pc = s.pc := rfl
@[simp] theorem State.await_stack (s : State) (x : Reg) : (s.await x).stack = s.stack := rfl
@[simp] theorem State.await_sp (s : State) (x : Reg) : (s.await x).sp = s.sp := rfl
@[simp] theorem State.await_mem (s : State) (x : Reg) : (s.await x).mem = s.mem := rfl
@[simp] theorem State.await_fb (s : State) (x : Reg) : (s.await x).fb = s.fb := rfl
@[simp] theorem State.await_dt (s : State) (x : Reg) : (s.await x).dt = s.dt := rfl
@[simp] theorem State.await_st (s : State) (x : Reg) : (s.await x).st = s.st := rfl
@[simp] theorem State.await_k (s : State) (x : Reg) : (s.await x).k = s.k := rfl
@[simp] theorem State.await_awaitingKey (s : State) (x : Reg) : (s.await x).awaitingKey = some x := rfl
@[simp] theorem State.await_keyEvent (s : State) (x : Reg) : (s.await x).keyEvent = none := rfl
@[simp] theorem State.await_fault (s : State) (x : Reg) : (s.await x).fault = s.fault := rfl
@[simp] theorem State.await_draws (s : State) (x : Reg) : (s.await x).draws = s.draws := rfl

/-! ### endWait -/

@[simp] theorem State.endWait_v (s : State) : (s.endWait).v = s.v := rfl
@[simp] theorem State.endWait_i (s : State) : (s.endWait).i = s.i := rfl
@[simp] theorem State.endWait_pc (s : State) : (s.endWait).pc = s.pc := rfl
@[simp] theorem State.endWait_stack (s : State) : (s.endWait).stack = s.stack := rfl
@[simp] theorem State.endWait_sp (s : State) : (s.endWait).sp = s.sp := rfl
@[simp] theorem State.endWait_mem (s : State) : (s.endWait).mem = s.mem := rfl
@[simp] theorem State.endWait_fb (s : State) : (s.endWait).fb = s.fb := rfl
@[simp] theorem State.endWait_dt (s : State) : (s.endWait).dt = s.dt := rfl
@[simp] theorem State.endWait_st (s : State) : (s.endWait).st = s.st := rfl
@[simp] theorem State.endWait_k (s : State) : (s.endWait).k = s.k := rfl
@[simp] theorem State.endWait_awaitingKey (s : State) : (s.endWait).awaitingKey = none := rfl
@[simp] theorem State.endWait_keyEvent (s : State) : (s.endWait).keyEvent = none := rfl
@[simp] theorem State.endWait_fault (s : State) : (s.endWait).fault = s.fault := rfl
@[simp] theorem State.endWait_draws (s : State) : (s.endWait).draws = s.draws := rfl

/-! ### raise -/

@[simp] theorem State.raise_fault (s : State) (f : Fault) : (s.raise f).fault = some f := rfl
@[simp] theorem State.raise_draws (s : State) (f : Fault) : (s.raise f).draws = s.draws + 1 := rfl

/-! ### redraw -/

@[simp] theorem State.redraw_fault (s : State) : (s.redraw).fault = s.fault := rfl
@[simp] theorem State.redraw_draws (s : State) : (s.redraw).draws = s.draws + 1 := rfl

/-! ### resetAll -/

@[simp] theorem State.resetAll_v (s : State) : (s.resetAll).v = State.reset.v := rfl
@[simp] theorem State.resetAll_i (s : State) : (s.resetAll).i = State.reset.i := rfl
@[simp] theorem State.resetAll_pc (s : State) : (s.resetAll).pc = State.reset.pc := rfl
@[simp] theorem State.resetAll_stack (s : State) : (s.resetAll).stack = State.reset.stack := rfl
@[simp] theorem State.resetAll_sp (s : State) : (s.resetAll).sp = State.reset.sp := rfl
@[simp] theorem State.resetAll_mem (s : State) : (s.resetAll).mem = State.reset.mem := rfl
@[simp] theorem State.resetAll_fb (s : State) : (s.resetAll).fb = State.reset.fb := rfl
@[simp] theorem State.resetAll_dt (s : State) : (s.resetAll).dt = State.reset.dt := rfl
@[simp] theorem State.resetAll_st (s : State) : (s.resetAll).st = State.reset.st := rfl
@[simp] theorem State.resetAll_k (s : State) : (s.resetAll).k = State.reset.k := rfl
@[simp] theorem State.resetAll_awaitingKey (s : State) : (s.resetAll).awaitingKey = State.reset.awaitingKey := rfl
@[simp] theorem State.resetAll_keyEvent (s : State) : (s.resetAll).keyEvent = State.reset.keyEvent := rfl
@[simp] theorem State.resetAll_fault (s : State) : (s.resetAll).fault = State.reset.fault := rfl
@[simp] theorem State.resetAll_draws (s : State) : (s.resetAll).draws = s.draws := rfl

@[simp] theorem State.drawRand_snd (s : State) : s.drawRand.2 = { s with draws := s.draws + 1 } := rfl
@[simp] theorem State.drawRand_fst (s : State) : s.drawRand.1 = Config.randomByte s.draws := rfl

end Sys2Proof.Machine
end

