-- ==== Sys2Proof/Laws/Ops.lean ====
section
/-! SUPPORT. What each shared operation can do, said once. -/

namespace Sys2Proof.Machine

/-! ### Registers -/

@[simp] theorem State.reg_setReg_same (s : State) (r : Reg) (b : Byte) : (s.setReg r b).reg r = b := by
  simp [State.reg, State.setReg]

@[simp] theorem State.reg_setReg_other (s : State) {r q : Reg} (b : Byte) (h : q ≠ r) :
    (s.setReg r b).reg q = s.reg q := by
  simp only [State.reg, State.setReg]
  exact Vector.getElem_set_ne _ _ fun e => h (Fin.ext e.symm)

theorem State.reg_setReg (s : State) (r q : Reg) (b : Byte) :
    (s.setReg r b).reg q = if q = r then b else s.reg q := by
  split
  · subst_vars
    simp
  · exact State.reg_setReg_other s b ‹_›

/-- Loading a list of bytes fills the registers it reaches and no other. -/
theorem State.reg_setRegs (s : State) (bytes : List Byte) (q : Reg) :
    (s.setRegs bytes).reg q = (bytes[q.val]?).getD (s.reg q) := by
  simp [State.reg, State.setRegs]

@[simp] theorem State.reg_setI (s : State) (w : Word) (q : Reg) : (s.setI w).reg q = s.reg q := rfl
@[simp] theorem State.reg_setPc (s : State) (w : Word) (q : Reg) : (s.setPc w).reg q = s.reg q := rfl
@[simp] theorem State.reg_setDt (s : State) (b : Byte) (q : Reg) : (s.setDt b).reg q = s.reg q := rfl
@[simp] theorem State.reg_setSt (s : State) (b : Byte) (q : Reg) : (s.setSt b).reg q = s.reg q := rfl
@[simp] theorem State.reg_setFb (s : State) (fb : Vector (BitVec 64) 32) (q : Reg) : (s.setFb fb).reg q = s.reg q := rfl
@[simp] theorem State.reg_setMem (s : State) (m : List Host.Cell) (q : Reg) : (s.setMem m).reg q = s.reg q := rfl
@[simp] theorem State.reg_await (s : State) (x q : Reg) : (s.await x).reg q = s.reg q := rfl
@[simp] theorem State.reg_endWait (s : State) (q : Reg) : s.endWait.reg q = s.reg q := rfl

/-- A result and a flag: the flag register holds the flag whichever register holds the result (rule R6). -/
theorem State.setResultFlag_eq (s : State) (x : Reg) (result flag : Byte) :
    s.setResultFlag x result flag = (s.setReg x result).setReg vf flag := rfl

theorem State.reg_setResultFlag (s : State) (x q : Reg) (result flag : Byte) :
    (s.setResultFlag x result flag).reg q = if q = vf then flag else if q = x then result else s.reg q := by
  rw [State.setResultFlag_eq, State.reg_setReg, State.reg_setReg]

/-- A skip moves `pc` and nothing else. -/
theorem State.skipIf_eq (s : State) (c : Bool) : s.skipIf c = s.setPc (if c then s.pc + 2 else s.pc) := by
  cases c <;> rfl

/-! ### The parameters at their values -/

@[simp] theorem Config.memSize_eq : Config.memSize = 4096 := rfl
@[simp] theorem Config.fontBase_eq : Config.fontBase = 0 := rfl
@[simp] theorem Config.fontBytes_eq : Config.fontBytes = 80 := rfl
@[simp] theorem Config.progBase_eq : Config.progBase = 512 := rfl
@[simp] theorem Config.progMax_eq : Config.progMax = 3584 := rfl
@[simp] theorem Config.dispW_eq : Config.dispW = 64 := rfl
@[simp] theorem Config.dispH_eq : Config.dispH = 32 := rfl

/-! ### The access primitives -/

/-- `MemRead` inside memory. -/
theorem memRead_inside (s : State) {a : Nat} (h : a ≤ 0xFFF) : memRead s a = .ok (s.byteAt a) := by
  simp [memRead, show ¬4096 ≤ a by omega]

/-- `MemRead` beyond memory. -/
theorem memRead_beyond (s : State) {a : Nat} (h : 0xFFF < a) : memRead s a = .error .addressOutOfRange := by
  simp [memRead, show 4096 ≤ a by omega]

/-- `MemWrite` where a program may store. -/
theorem memWrite_inside (s : State) {a : Nat} (b : Byte) (h : 0x050 ≤ a) (h' : a ≤ 0xFFF) :
    memWrite s a b = .ok (s.setMem (Memory.write s.mem a b)) := by
  simp [memWrite, show ¬4096 ≤ a by omega, show ¬a < 80 by omega]

/-- `MemWrite` into the font. -/
theorem memWrite_font (s : State) {a : Nat} (b : Byte) (h : a ≤ 0x04F) : memWrite s a b = .error .fontWrite := by
  simp [memWrite, Config.fontWrite, show ¬4096 ≤ a by omega, show a < 80 by omega]

/-- `MemWrite` beyond memory. -/
theorem memWrite_beyond (s : State) {a : Nat} (b : Byte) (h : 0xFFF < a) :
    memWrite s a b = .error .addressOutOfRange := by
  simp [memWrite, show 4096 ≤ a by omega]

/-- The fetch's read inside memory. -/
theorem memReadWord_inside (s : State) {a : Nat} (h : a ≤ 0xFFE) :
    memReadWord s a = .ok (s.byteAt a ++ s.byteAt (a + 1)) := by
  simp [memReadWord, memRead_inside s (show a ≤ 0xFFF by omega), memRead_inside s (show a + 1 ≤ 0xFFF by omega)]

/-- The fetch's read beyond memory. -/
theorem memReadWord_beyond (s : State) {a : Nat} (h : 0xFFE < a) :
    memReadWord s a = .error .addressOutOfRange := by
  by_cases ha : a ≤ 0xFFF
  · simp [memReadWord, memRead_inside s ha, memRead_beyond s (show 0xFFF < a + 1 by omega)]
  · simp [memReadWord, memRead_beyond s (show 0xFFF < a by omega)]

/-- Reading `n` bytes inside memory gives them in ascending order. -/
theorem memReadBytes_inside (s : State) {a n : Nat} (h : a + n ≤ 0x1000) :
    memReadBytes s a n = .ok ((List.range n).map fun j => s.byteAt (a + j)) := by
  induction n generalizing a with
  | zero => rfl
  | succ n ih =>
    rw [memReadBytes, memRead_inside s (by omega)]
    simp only [ih (show a + 1 + n ≤ 0x1000 by omega), List.range_succ_eq_map, List.map_cons, List.map_map]
    simp [Function.comp_def, Nat.add_assoc, Nat.add_comm 1]

/-- Reading past the end of memory raises. -/
theorem memReadBytes_beyond (s : State) {a n : Nat} (h : 0x1000 < a + n) (hn : 0 < n) :
    memReadBytes s a n = .error .addressOutOfRange := by
  induction n generalizing a with
  | zero => omega
  | succ n ih =>
    rw [memReadBytes]
    by_cases ha : a ≤ 0xFFF
    · rw [memRead_inside s ha]
      simp only [ih (show 0x1000 < a + 1 + n by omega) (by omega)]
    · rw [memRead_beyond s (by omega)]

/-- A run of stores where a program may store. -/
theorem memWriteBytes_inside (s : State) (bs : List Byte) {a : Nat} (h : 0x050 ≤ a) (h' : a + bs.length ≤ 0x1000) :
    memWriteBytes s a bs = .ok (s.setMem (Memory.writeAll s.mem a bs)) := by
  induction bs generalizing s a with
  | nil => rfl
  | cons b bs ih =>
    simp only [List.length_cons] at h'
    rw [memWriteBytes, memWrite_inside s b h (by omega)]
    simp only [ih _ (show 0x050 ≤ a + 1 by omega) (by omega), Memory.writeAll]
    rfl

/-- A run of stores that begins in the font raises. -/
theorem memWriteBytes_font (s : State) {bs : List Byte} {a : Nat} (h : a ≤ 0x04F) (hb : bs ≠ []) :
    memWriteBytes s a bs = .error .fontWrite := by
  cases bs with
  | nil => exact absurd rfl hb
  | cons b bs => rw [memWriteBytes, memWrite_font s b h]

/-- A run of stores past the end of memory raises. -/
theorem memWriteBytes_beyond (s : State) {bs : List Byte} {a : Nat} (h : 0x050 ≤ a) (h' : 0x1000 < a + bs.length)
    (hb : bs ≠ []) : memWriteBytes s a bs = .error .addressOutOfRange := by
  induction bs generalizing s a with
  | nil => exact absurd rfl hb
  | cons b bs ih =>
    simp only [List.length_cons] at h'
    rw [memWriteBytes]
    by_cases ha : a ≤ 0xFFF
    · rw [memWrite_inside s b h ha]
      simp only [ih _ (show 0x050 ≤ a + 1 by omega) (by omega) (by rintro rfl; simp at h'; omega)]
    · rw [memWrite_beyond s b (by omega)]

/-- Everything a run of reads can answer. -/
theorem memReadBytes_cases (s : State) (a n : Nat) :
    ((n = 0 ∨ a + n ≤ 0x1000) ∧ memReadBytes s a n = .ok ((List.range n).map fun j => s.byteAt (a + j))) ∨
    (0 < n ∧ 0x1000 < a + n ∧ memReadBytes s a n = .error .addressOutOfRange) := by
  by_cases hn : n = 0
  · subst hn
    exact .inl ⟨.inl rfl, rfl⟩
  · by_cases h : a + n ≤ 0x1000
    · exact .inl ⟨.inr h, memReadBytes_inside s h⟩
    · exact .inr ⟨by omega, by omega, memReadBytes_beyond s (by omega) (by omega)⟩

/-- Everything a run of at least one store can answer. -/
theorem memWriteBytes_cases (s : State) {bs : List Byte} (a : Nat) (hb : bs ≠ []) :
    (0x050 ≤ a ∧ a + bs.length ≤ 0x1000 ∧ memWriteBytes s a bs = .ok (s.setMem (Memory.writeAll s.mem a bs))) ∨
    (a ≤ 0x04F ∧ memWriteBytes s a bs = .error .fontWrite) ∨
    (0x050 ≤ a ∧ 0x1000 < a + bs.length ∧ memWriteBytes s a bs = .error .addressOutOfRange) := by
  by_cases h1 : a ≤ 0x04F
  · exact .inr (.inl ⟨h1, memWriteBytes_font s h1 hb⟩)
  · by_cases h2 : a + bs.length ≤ 0x1000
    · exact .inl ⟨by omega, h2, memWriteBytes_inside s bs (by omega) h2⟩
    · exact .inr (.inr ⟨by omega, by omega, memWriteBytes_beyond s (by omega) (by omega) hb⟩)

@[simp] theorem length_decimalDigits (b : Byte) : (decimalDigits b).length = 3 := rfl

@[simp] theorem length_rangeOperand (s : State) (x : Reg) : (rangeOperand s x).length = x.val + 1 := by
  simp [rangeOperand]

theorem rangeOperand_ne_nil (s : State) (x : Reg) : rangeOperand s x ≠ [] := by
  intro h
  have := congrArg List.length h
  simp at this

/-- The range operand holds the registers in ascending order. -/
theorem getElem_rangeOperand (s : State) (x : Reg) {j : Nat} (h : j ≤ x.val) :
    (rangeOperand s x)[j]'(by rw [length_rangeOperand]; omega) = s.reg ⟨j, by omega⟩ := by
  simp [rangeOperand, State.reg]

@[simp] theorem effectiveAddress_eq (s : State) (j : Nat) : effectiveAddress s j = s.i.toNat + j := rfl

/-- The key a register selects, with the index masked. -/
@[simp] theorem keyOperand_eq (b : Byte) : keyOperand b = .ok (Fin.ofNat 16 b.toNat) := rfl

/-! ### The call stack -/

@[simp] theorem stackEntry_eq (w : Word) : stackEntry w = w := BitVec.setWidth_eq w
@[simp] theorem returnAddress_eq (e : BitVec Config.stackEntryWidth) : returnAddress e = e := BitVec.setWidth_eq e

/-- A push below the depth. -/
theorem State.push_room (s : State) (w : Word) (h : s.sp.val < 16) :
    s.push w = .ok { s with stack := s.stack.set s.sp.val w, sp := ⟨s.sp.val + 1, by omega⟩ } := by
  simp [State.push, h]

/-- A push at the depth. -/
theorem State.push_full (s : State) (w : Word) (h : s.sp.val = 16) : s.push w = .error .stackOverflow := by
  simp [State.push, h]

/-- A pop of a live entry. -/
theorem State.pop_live (s : State) (h : s.sp.val ≠ 0) :
    s.pop = .ok (s.stack[s.sp.val - 1], { s with sp := ⟨s.sp.val - 1, by omega⟩ }) := by
  simp [State.pop, h]

/-- A pop of an empty stack. -/
theorem State.pop_empty (s : State) (h : s.sp.val = 0) : s.pop = .error .stackUnderflow := by
  simp [State.pop, h]

/-! ### The display -/

/-- Flipping a cell of the display inverts that cell and no other. -/
theorem cellOf_flipCell (fb : Vector (BitVec 64) 32) {c d : Nat} (hc : c < 2048) :
    cellOf (flipCell fb c) d = (cellOf fb d ^^ decide (d = c)) := by
  have hq : c / 64 < 32 := by omega
  simp only [cellOf, flipCell, Config.dispW_eq, Vector.getElem?_setIfInBounds]
  by_cases h : c / 64 = d / 64
  · have hd : d / 64 < 32 := by omega
    rw [if_pos h, if_pos hq, h]
    simp only [Vector.getElem?_eq_getElem hd, Option.getD_some, BitVec.getLsbD_xor, BitVec.getLsbD_twoPow]
    congr 1
    have : d = c ↔ c % 64 = d % 64 := by omega
    simp [this, show c % 64 < 64 by omega]
  · rw [if_neg h]
    have : d ≠ c := by
      rintro rfl
      exact h rfl
    simp [this]

@[simp] theorem cellOf_blank (c : Nat) : cellOf (Vector.replicate 32 0) c = false := by
  simp only [cellOf, Config.dispW_eq, Vector.getElem?_replicate]
  split <;> simp

/-- Every sprite cell lies on the display. -/
theorem spriteCell_lt (x0 y0 dx dy : Nat) : spriteCell x0 y0 dx dy < 2048 := by
  simp only [spriteCell, Config.dispW_eq, Config.dispH_eq]
  omega

/-! ### The key levels -/

theorem State.key_setKeyLevel (s : State) (k q : Key) (p : Bool) :
    (s.setKeyLevel k p).key q = if q = k then p else s.key q := by
  simp only [State.key, State.setKeyLevel]
  split
  · subst_vars
    simp
  · exact Vector.getElem_set_ne _ _ fun e => (by assumption : q ≠ k) (Fin.ext e.symm)

/-! ### Fault entry -/

theorem State.raise_mem (s : State) (f : Fault) : (s.raise f).mem = Memory.ofContents (Config.anyMem s.draws) := by
  simp only [State.raise, State.redraw]

theorem State.redraw_mem (s : State) : s.redraw.mem = Memory.ofContents (Config.anyMem s.draws) := by
  simp only [State.redraw]

/-- Fault entry leaves memory in canonical form. -/
theorem State.wf_raise (s : State) (f : Fault) : Memory.wf (s.raise f).mem := by
  rw [State.raise_mem]
  exact Memory.wf_ofContents _

/-- The unspecified state keeps memory in canonical form. -/
theorem State.wf_redraw (s : State) : Memory.wf s.redraw.mem := by
  rw [State.redraw_mem]
  exact Memory.wf_ofContents _

/-- An instruction that may raise either completes or takes the fault entry; it always answers a next state. -/
theorem settle_cases {s t : State} {r : Except Fault State} (h : settle s r = .next t) :
    r = .ok t ∨ ∃ f, r = .error f ∧ t = s.raise f := by
  cases r with
  | ok u => exact .inl (by cases h; rfl)
  | error f => exact .inr ⟨f, rfl, by cases h; rfl⟩

end Sys2Proof.Machine
end

