-- ==== Sys2Proof/Laws/PerInstr.lean ====
section
/-! SUPPORT. The family Encoding: an instruction's word matches the opcode map's row of its own pattern (rule R66). -/

namespace Sys2Proof.Laws.Encoding

/-- Some row of the map carries the instruction's pattern and accepts its word. -/
def Statement (i : Instr) : Prop := ∃ r ∈ opcodeRows, r.pattern = i.pattern ∧ r.accepts (encode i) = true

/-! What a row's mask leaves of a word of each format. -/

theorem wordNNN_mask (t : BitVec 4) (nnn : BitVec 12) : wordNNN t nnn &&& 0xF000 = wordNNN t 0 := by
  apply BitVec.eq_of_getLsbD_eq
  intro i hi
  rw [BitVec.getLsbD_and, getLsbD_wordNNN, getLsbD_wordNNN]
  interval_cases i <;> simp

theorem wordXNN_mask (t : BitVec 4) (x : Reg) (nn : Byte) : wordXNN t x nn &&& 0xF000 = wordXNN t 0 0 := by
  apply BitVec.eq_of_getLsbD_eq
  intro i hi
  rw [BitVec.getLsbD_and, getLsbD_wordXNN, getLsbD_wordXNN]
  interval_cases i <;> simp [regField]

theorem wordXNN_maskSub (t : BitVec 4) (x : Reg) (nn : Byte) : wordXNN t x nn &&& 0xF0FF = wordXNN t 0 nn := by
  apply BitVec.eq_of_getLsbD_eq
  intro i hi
  rw [BitVec.getLsbD_and, getLsbD_wordXNN, getLsbD_wordXNN]
  interval_cases i <;> simp [regField]

theorem wordXYN_mask (t : BitVec 4) (x y : Reg) (n : BitVec 4) : wordXYN t x y n &&& 0xF000 = wordXYN t 0 0 0 := by
  apply BitVec.eq_of_getLsbD_eq
  intro i hi
  rw [BitVec.getLsbD_and, getLsbD_wordXYN, getLsbD_wordXYN]
  interval_cases i <;> simp [regField]

theorem wordXYN_maskSub (t : BitVec 4) (x y : Reg) (n : BitVec 4) : wordXYN t x y n &&& 0xF00F = wordXYN t 0 0 n := by
  apply BitVec.eq_of_getLsbD_eq
  intro i hi
  rw [BitVec.getLsbD_and, getLsbD_wordXYN, getLsbD_wordXYN]
  interval_cases i <;> simp [regField]

/-! One lemma per constructor. -/

theorem cls : Statement .cls :=
  ⟨⟨"00E0", 0x00E0, 0xFFFF⟩, by decide, rfl, by decide⟩

theorem ret : Statement .ret :=
  ⟨⟨"00EE", 0x00EE, 0xFFFF⟩, by decide, rfl, by decide⟩

theorem jp (nnn : BitVec 12) : Statement (.jp nnn) :=
  ⟨⟨"1NNN", 0x1000, 0xF000⟩, by decide, rfl, beq_iff_eq.mpr (wordNNN_mask 0x1 nnn)⟩

theorem call (nnn : BitVec 12) : Statement (.call nnn) :=
  ⟨⟨"2NNN", 0x2000, 0xF000⟩, by decide, rfl, beq_iff_eq.mpr (wordNNN_mask 0x2 nnn)⟩

theorem seImm (x : Reg) (nn : Byte) : Statement (.seImm x nn) :=
  ⟨⟨"3XNN", 0x3000, 0xF000⟩, by decide, rfl, beq_iff_eq.mpr (wordXNN_mask 0x3 x nn)⟩

theorem sneImm (x : Reg) (nn : Byte) : Statement (.sneImm x nn) :=
  ⟨⟨"4XNN", 0x4000, 0xF000⟩, by decide, rfl, beq_iff_eq.mpr (wordXNN_mask 0x4 x nn)⟩

theorem seReg (x y : Reg) : Statement (.seReg x y) :=
  ⟨⟨"5XY0", 0x5000, 0xF00F⟩, by decide, rfl, beq_iff_eq.mpr (wordXYN_maskSub 0x5 x y 0x0)⟩

theorem ldImm (x : Reg) (nn : Byte) : Statement (.ldImm x nn) :=
  ⟨⟨"6XNN", 0x6000, 0xF000⟩, by decide, rfl, beq_iff_eq.mpr (wordXNN_mask 0x6 x nn)⟩

theorem addImm (x : Reg) (nn : Byte) : Statement (.addImm x nn) :=
  ⟨⟨"7XNN", 0x7000, 0xF000⟩, by decide, rfl, beq_iff_eq.mpr (wordXNN_mask 0x7 x nn)⟩

theorem ldReg (x y : Reg) : Statement (.ldReg x y) :=
  ⟨⟨"8XY0", 0x8000, 0xF00F⟩, by decide, rfl, beq_iff_eq.mpr (wordXYN_maskSub 0x8 x y 0x0)⟩

theorem or (x y : Reg) : Statement (.or x y) :=
  ⟨⟨"8XY1", 0x8001, 0xF00F⟩, by decide, rfl, beq_iff_eq.mpr (wordXYN_maskSub 0x8 x y 0x1)⟩

theorem and (x y : Reg) : Statement (.and x y) :=
  ⟨⟨"8XY2", 0x8002, 0xF00F⟩, by decide, rfl, beq_iff_eq.mpr (wordXYN_maskSub 0x8 x y 0x2)⟩

theorem xor (x y : Reg) : Statement (.xor x y) :=
  ⟨⟨"8XY3", 0x8003, 0xF00F⟩, by decide, rfl, beq_iff_eq.mpr (wordXYN_maskSub 0x8 x y 0x3)⟩

theorem addReg (x y : Reg) : Statement (.addReg x y) :=
  ⟨⟨"8XY4", 0x8004, 0xF00F⟩, by decide, rfl, beq_iff_eq.mpr (wordXYN_maskSub 0x8 x y 0x4)⟩

theorem sub (x y : Reg) : Statement (.sub x y) :=
  ⟨⟨"8XY5", 0x8005, 0xF00F⟩, by decide, rfl, beq_iff_eq.mpr (wordXYN_maskSub 0x8 x y 0x5)⟩

theorem shr (x y : Reg) : Statement (.shr x y) :=
  ⟨⟨"8XY6", 0x8006, 0xF00F⟩, by decide, rfl, beq_iff_eq.mpr (wordXYN_maskSub 0x8 x y 0x6)⟩

theorem subn (x y : Reg) : Statement (.subn x y) :=
  ⟨⟨"8XY7", 0x8007, 0xF00F⟩, by decide, rfl, beq_iff_eq.mpr (wordXYN_maskSub 0x8 x y 0x7)⟩

theorem shl (x y : Reg) : Statement (.shl x y) :=
  ⟨⟨"8XYE", 0x800E, 0xF00F⟩, by decide, rfl, beq_iff_eq.mpr (wordXYN_maskSub 0x8 x y 0xE)⟩

theorem sneReg (x y : Reg) : Statement (.sneReg x y) :=
  ⟨⟨"9XY0", 0x9000, 0xF00F⟩, by decide, rfl, beq_iff_eq.mpr (wordXYN_maskSub 0x9 x y 0x0)⟩

theorem ldI (nnn : BitVec 12) : Statement (.ldI nnn) :=
  ⟨⟨"ANNN", 0xA000, 0xF000⟩, by decide, rfl, beq_iff_eq.mpr (wordNNN_mask 0xA nnn)⟩

theorem jpV0 (nnn : BitVec 12) : Statement (.jpV0 nnn) :=
  ⟨⟨"BNNN", 0xB000, 0xF000⟩, by decide, rfl, beq_iff_eq.mpr (wordNNN_mask 0xB nnn)⟩

theorem rnd (x : Reg) (nn : Byte) : Statement (.rnd x nn) :=
  ⟨⟨"CXNN", 0xC000, 0xF000⟩, by decide, rfl, beq_iff_eq.mpr (wordXNN_mask 0xC x nn)⟩

theorem drw (x y : Reg) (n : BitVec 4) : Statement (.drw x y n) :=
  ⟨⟨"DXYN", 0xD000, 0xF000⟩, by decide, rfl, beq_iff_eq.mpr (wordXYN_mask 0xD x y n)⟩

theorem skp (x : Reg) : Statement (.skp x) :=
  ⟨⟨"EX9E", 0xE09E, 0xF0FF⟩, by decide, rfl, beq_iff_eq.mpr (wordXNN_maskSub 0xE x 0x9E)⟩

theorem sknp (x : Reg) : Statement (.sknp x) :=
  ⟨⟨"EXA1", 0xE0A1, 0xF0FF⟩, by decide, rfl, beq_iff_eq.mpr (wordXNN_maskSub 0xE x 0xA1)⟩

theorem ldVxDt (x : Reg) : Statement (.ldVxDt x) :=
  ⟨⟨"FX07", 0xF007, 0xF0FF⟩, by decide, rfl, beq_iff_eq.mpr (wordXNN_maskSub 0xF x 0x07)⟩

theorem ldVxKey (x : Reg) : Statement (.ldVxKey x) :=
  ⟨⟨"FX0A", 0xF00A, 0xF0FF⟩, by decide, rfl, beq_iff_eq.mpr (wordXNN_maskSub 0xF x 0x0A)⟩

theorem ldDtVx (x : Reg) : Statement (.ldDtVx x) :=
  ⟨⟨"FX15", 0xF015, 0xF0FF⟩, by decide, rfl, beq_iff_eq.mpr (wordXNN_maskSub 0xF x 0x15)⟩

theorem ldStVx (x : Reg) : Statement (.ldStVx x) :=
  ⟨⟨"FX18", 0xF018, 0xF0FF⟩, by decide, rfl, beq_iff_eq.mpr (wordXNN_maskSub 0xF x 0x18)⟩

theorem addI (x : Reg) : Statement (.addI x) :=
  ⟨⟨"FX1E", 0xF01E, 0xF0FF⟩, by decide, rfl, beq_iff_eq.mpr (wordXNN_maskSub 0xF x 0x1E)⟩

theorem ldF (x : Reg) : Statement (.ldF x) :=
  ⟨⟨"FX29", 0xF029, 0xF0FF⟩, by decide, rfl, beq_iff_eq.mpr (wordXNN_maskSub 0xF x 0x29)⟩

theorem ldB (x : Reg) : Statement (.ldB x) :=
  ⟨⟨"FX33", 0xF033, 0xF0FF⟩, by decide, rfl, beq_iff_eq.mpr (wordXNN_maskSub 0xF x 0x33)⟩

theorem storeRegs (x : Reg) : Statement (.storeRegs x) :=
  ⟨⟨"FX55", 0xF055, 0xF0FF⟩, by decide, rfl, beq_iff_eq.mpr (wordXNN_maskSub 0xF x 0x55)⟩

theorem loadRegs (x : Reg) : Statement (.loadRegs x) :=
  ⟨⟨"FX65", 0xF065, 0xF0FF⟩, by decide, rfl, beq_iff_eq.mpr (wordXNN_maskSub 0xF x 0x65)⟩

end Sys2Proof.Laws.Encoding
end

