-- ==== Sys2Proof/Laws/Step.lean ====
section
/-! SUPPORT. Everything a step can do, said once. -/

namespace Sys2Proof.Machine

/-- With no alignment check the fetch is the read of a word at `pc`. -/
theorem fetch_eq (s : State) : fetch s = memReadWord s s.pc.toNat := rfl

/-- A fetch inside memory reads the big-endian word at `pc`. -/
theorem fetch_inside (s : State) (h : s.pc.toNat ≤ 0xFFE) :
    fetch s = .ok (s.byteAt s.pc.toNat ++ s.byteAt (s.pc.toNat + 1)) :=
  (fetch_eq s).trans (memReadWord_inside s h)

/-- A fetch beyond memory raises. -/
theorem fetch_beyond (s : State) (h : 0xFFE < s.pc.toNat) : fetch s = .error .addressOutOfRange :=
  (fetch_eq s).trans (memReadWord_beyond s h)

/-- An instruction is fetched only from inside memory. -/
theorem pc_of_fetchInstr {s : State} {i : Instr} (h : fetchInstr s = .ok i) : s.pc.toNat ≤ 0xFFE := by
  by_contra hp
  rw [fetchInstr, fetch_beyond s (by omega)] at h
  cases h

/-- The faults of fetch and decode. -/
theorem fetchInstr_error {s : State} {f : Fault} (h : fetchInstr s = .error f) :
    (0xFFE < s.pc.toNat ∧ f = .addressOutOfRange) ∨ (s.pc.toNat ≤ 0xFFE ∧ f = .unknownOpcode) := by
  by_cases hp : s.pc.toNat ≤ 0xFFE
  · rw [fetchInstr, fetch_inside s hp] at h
    refine .inr ⟨hp, ?_⟩
    dsimp only at h
    split at h
    · cases h
    · cases h
      rfl
  · rw [fetchInstr, fetch_beyond s (by omega)] at h
    cases h
    exact .inl ⟨by omega, rfl⟩

/-- The wait step, case by case. -/
theorem waitStep_none {x : Reg} {s : State} (h : s.keyEvent = none) : waitStep x s = s := by
  rw [waitStep, h]

theorem waitStep_some {x : Reg} {s : State} {k : Key} (h : s.keyEvent = some k) :
    waitStep x s = (s.endWait.setReg x (BitVec.ofNat 8 k.val)).setPc (s.pc + 2) := by
  rw [waitStep, h]

/-- A running step executes what it fetched. -/
theorem step_running {s : State} {i : Instr} (hf : s.fault = none) (ha : s.awaitingKey = none)
    (hi : fetchInstr s = .ok i) : step s = exec i (advance s) := by
  simp only [step, stepTransaction, hf, ha, runningStep, hi]

/-- A running step whose fetch or decode raises takes the fault entry. -/
theorem step_raises {s : State} {f : Fault} (hf : s.fault = none) (ha : s.awaitingKey = none)
    (hi : fetchInstr s = .error f) : step s = .next (s.raise f) := by
  simp only [step, stepTransaction, hf, ha, runningStep, hi]

/-- A waiting step is the wait step of its register. -/
theorem step_waiting {s : State} {x : Reg} (hf : s.fault = none) (ha : s.awaitingKey = some x) :
    step s = .next (waitStep x s) := by
  simp only [step, stepTransaction, hf, ha]

/-- A step that answers a next state is a wait step, a fault entry of fetch or decode, or the fetched instruction. -/
theorem step_cases {s t : State} (h : step s = .next t) :
    s.fault = none ∧
      ((∃ x, s.awaitingKey = some x ∧ t = waitStep x s) ∨
       (s.awaitingKey = none ∧ ∃ f, fetchInstr s = .error f ∧ t = s.raise f) ∨
       (s.awaitingKey = none ∧ ∃ i, fetchInstr s = .ok i ∧ exec i (advance s) = .next t)) := by
  unfold step stepTransaction at h
  split at h
  · cases h
  · rename_i hf
    refine ⟨hf, ?_⟩
    split at h
    · rename_i x hx
      exact .inl ⟨x, hx, by cases h; rfl⟩
    · rename_i hx
      unfold runningStep at h
      split at h
      · rename_i i hi
        exact .inr (.inr ⟨hx, i, hi, h⟩)
      · rename_i f hfe
        exact .inr (.inl ⟨hx, f, hfe, by cases h; rfl⟩)

@[simp] theorem advance_pc (s : State) : (advance s).pc = s.pc + 2 := rfl

/-- The advance of a fetched `pc` does not wrap. -/
theorem advance_pc_toNat {s : State} (h : s.pc.toNat ≤ 0xFFE) : (advance s).pc.toNat = s.pc.toNat + 2 := by
  rw [advance_pc, BitVec.toNat_add]
  simp
  omega

end Sys2Proof.Machine
end

