-- ==== Sys2Proof/Tests/Slice0.lean ====
section
/-! SUPPORT. Tests: words written out from rule R66's encodings, the checks of WellFormed on ill-formed words, at most two
one-step vectors per instruction (their source is named: a rule's own example, or 95_test_vectors part 2), and a witness for
the hypotheses of every statement that has any. -/

namespace Sys2Proof.Tests

open Sys2Proof.Machine

/-! ### Helpers -/

/-- The reset state with some registers set. -/
def regs (l : List (Reg × Byte)) : State := l.foldl (fun s p => s.setReg p.1 p.2) State.reset

/-- A state with some bytes of memory set, in order. -/
def bytes (s : State) (a : Nat) (l : List Byte) : State := s.setMem (Memory.writeAll s.mem a l)

/-- The state one step leaves when the word stands where it fetches. -/
def after (w : Nat) (s : State) : State :=
  match step (s.withFetchWord 16 w) with
  | .next t => t
  | _ => s

/-- What that step returns. -/
def answer (w : Nat) (s : State) : Response := (perform .step (s.withFetchWord 16 w)).2

/-- A state with `SP` and one entry set. -/
def stacked (sp : Fin 17) (j : Fin 16) (w : Word) : State :=
  { State.reset with sp := sp, stack := State.reset.stack.set j.val w }

/-! ### Decoding: one word per constructor, from rule R66 -/

theorem test_decode_family0 : decode 0x00E0 = .ok .cls ∧ decode 0x00EE = .ok .ret := by decide
theorem test_decode_flow : decode 0x1234 = .ok (.jp 0x234) ∧ decode 0x2300 = .ok (.call 0x300) ∧
    decode 0xBFFF = .ok (.jpV0 0xFFF) := by decide
theorem test_decode_skips : decode 0x332A = .ok (.seImm 3 0x2A) ∧ decode 0x432A = .ok (.sneImm 3 0x2A) ∧
    decode 0x5120 = .ok (.seReg 1 2) ∧ decode 0x9120 = .ok (.sneReg 1 2) := by decide
theorem test_decode_immediates : decode 0x6A2C = .ok (.ldImm 10 0x2C) ∧ decode 0x7220 = .ok (.addImm 2 0x20) ∧
    decode 0xC30F = .ok (.rnd 3 0x0F) := by decide
theorem test_decode_copy_logic : decode 0x8340 = .ok (.ldReg 3 4) ∧ decode 0x8121 = .ok (.or 1 2) ∧
    decode 0x8122 = .ok (.and 1 2) ∧ decode 0x8123 = .ok (.xor 1 2) := by decide
theorem test_decode_arith : decode 0x8124 = .ok (.addReg 1 2) ∧ decode 0x8125 = .ok (.sub 1 2) ∧
    decode 0x8127 = .ok (.subn 1 2) := by decide
theorem test_decode_shifts : decode 0x8106 = .ok (.shr 1 0) ∧ decode 0x812E = .ok (.shl 1 2) := by decide
theorem test_decode_index : decode 0xA2F0 = .ok (.ldI 0x2F0) ∧ decode 0xF21E = .ok (.addI 2) ∧
    decode 0xF429 = .ok (.ldF 4) := by decide
theorem test_decode_memory : decode 0xF533 = .ok (.ldB 5) ∧ decode 0xF255 = .ok (.storeRegs 2) ∧
    decode 0xF265 = .ok (.loadRegs 2) := by decide
theorem test_decode_display : decode 0xD015 = .ok (.drw 0 1 5) := by decide
theorem test_decode_keypad : decode 0xE29E = .ok (.skp 2) ∧ decode 0xE2A1 = .ok (.sknp 2) ∧
    decode 0xF30A = .ok (.ldVxKey 3) := by decide
theorem test_decode_timers : decode 0xF407 = .ok (.ldVxDt 4) ∧ decode 0xF415 = .ok (.ldDtVx 4) ∧
    decode 0xF518 = .ok (.ldStVx 5) := by decide
theorem test_decode_bytes : decodeBytes [0xD0, 0x15, 0x12] = .ok (.drw 0 1 5, [0x12]) ∧
    decodeBytes [0xD0] = .error .truncated := by decide
theorem test_table_word : decodeTableWord 16 0xF065 = some (.loadRegs 0) ∧ decodeTableWord 16 0x0123 = none := by decide

/-! ### WellFormed: an ill-formed word for each class of rule R67 (95_test_vectors part 2), refused by the check and by name -/

theorem test_illformed_family0 : legalWord 0x0000 = false ∧ decode 0x0000 = .error (.unknownOpcode 0x0000) ∧
    legalWord 0x00E1 = false ∧ decode 0x00E1 = .error (.unknownOpcode 0x00E1) ∧
    legalWord 0x0123 = false ∧ decode 0x0123 = .error (.unknownOpcode 0x0123) := by decide
theorem test_illformed_family5 : legalWord 0x5001 = false ∧ decode 0x5001 = .error (.unknownOpcode 0x5001) := by decide
theorem test_illformed_family8 : legalWord 0x8008 = false ∧ decode 0x8008 = .error (.unknownOpcode 0x8008) ∧
    legalWord 0x800F = false ∧ decode 0x800F = .error (.unknownOpcode 0x800F) := by decide
theorem test_illformed_family9 : legalWord 0x9001 = false ∧ decode 0x9001 = .error (.unknownOpcode 0x9001) := by decide
theorem test_illformed_familyE : legalWord 0xE09F = false ∧ decode 0xE09F = .error (.unknownOpcode 0xE09F) ∧
    legalWord 0xE000 = false ∧ decode 0xE000 = .error (.unknownOpcode 0xE000) := by decide
theorem test_illformed_familyF : legalWord 0xF01F = false ∧ decode 0xF01F = .error (.unknownOpcode 0xF01F) ∧
    legalWord 0xF075 = false ∧ decode 0xF075 = .error (.unknownOpcode 0xF075) ∧
    legalWord 0xFFFF = false ∧ decode 0xFFFF = .error (.unknownOpcode 0xFFFF) := by decide
theorem test_wellformed_words : (∀ r ∈ opcodeRows, legalWord r.value = true) := by decide
theorem test_rows : opcodeRows.length = 34 ∧ opcodeRows.Pairwise (fun r q => r.pattern ≠ q.pattern) := by decide

/-! ### One step per instruction -/

/-- S6. -/
theorem test_cls : (after 0x00E0 { regs [(15, 1)] with fb := Vector.replicate 32 (BitVec.allOnes 64) }).fb = State.reset.fb ∧
    answer 0x00E0 State.reset = .stepped true false := by decide
/-- 95_test_vectors: `00EE`. -/
theorem test_ret : (after 0x00EE (stacked 1 0 0x0ABC)).pc = 0xABC ∧ (after 0x00EE (stacked 1 0 0x0ABC)).sp = 0 := by decide
theorem test_ret_empty : (after 0x00EE State.reset).fault = some .stackUnderflow ∧
    answer 0x00EE State.reset = .stepError .stackUnderflow := by decide
/-- R100. -/
theorem test_jp : (after 0x1234 State.reset).pc = 0x234 := by decide
/-- R101. -/
theorem test_call : (after 0x2300 State.reset).stack[0] = 0x202 ∧ (after 0x2300 State.reset).sp = 1 ∧
    (after 0x2300 (stacked 15 0 0)).stack[15] = 0x202 := by decide
theorem test_call_full : (after 0x2300 (stacked 16 0 0)).fault = some .stackOverflow := by decide
/-- R103. -/
theorem test_jpV0 : (after 0xB300 (regs [(0, 4)])).pc = 0x304 ∧ (after 0xBFFF (regs [(0, 0xFF)])).pc = 0x10FE := by decide
/-- R104. -/
theorem test_seImm : (after 0x332A (regs [(3, 0x2A)])).pc = 0x204 ∧ (after 0x332A (regs [(3, 0x2B)])).pc = 0x202 := by decide
/-- R105. -/
theorem test_sneImm : (after 0x432A (regs [(3, 0x2A)])).pc = 0x202 ∧ (after 0x432A (regs [])).pc = 0x204 := by decide
/-- R106. -/
theorem test_seReg : (after 0x5120 (regs [(1, 7), (2, 7)])).pc = 0x204 ∧
    (after 0x5120 (regs [(1, 7), (2, 8)])).pc = 0x202 := by decide
/-- R107. -/
theorem test_sneReg : (after 0x9120 (regs [(1, 7), (2, 8)])).pc = 0x204 ∧
    (after 0x9120 (regs [(1, 7), (2, 7)])).pc = 0x202 := by decide
/-- R120. -/
theorem test_ldImm : (after 0x6A2C State.reset).reg 10 = 0x2C := by decide
/-- R121. -/
theorem test_addImm : (after 0x7201 (regs [(2, 0xFF), (15, 0xAA)])).reg 2 = 0 ∧
    (after 0x7201 (regs [(2, 0xFF), (15, 0xAA)])).reg 15 = 0xAA := by decide
/-- R122. -/
theorem test_ldReg : (after 0x8340 (regs [(4, 0x99)])).reg 3 = 0x99 := by decide
/-- 95_test_vectors: logic leaves `VF`. -/
theorem test_or : (after 0x8121 (regs [(1, 0xCC), (2, 0xAA), (15, 0x77)])).reg 1 = 0xEE ∧
    (after 0x8121 (regs [(1, 0xCC), (2, 0xAA), (15, 0x77)])).reg 15 = 0x77 := by decide
theorem test_and : (after 0x8122 (regs [(1, 0xCC), (2, 0xAA)])).reg 1 = 0x88 := by decide
theorem test_xor : (after 0x8123 (regs [(1, 0xCC), (2, 0xAA)])).reg 1 = 0x66 := by decide
/-- R126. -/
theorem test_addReg : (after 0x8124 (regs [(1, 0xC8), (2, 0x64)])).reg 1 = 0x2C ∧
    (after 0x8124 (regs [(1, 0xC8), (2, 0x64)])).reg 15 = 1 := by decide
/-- 95_test_vectors: `VF` as destination and as source. -/
theorem test_addReg_vf : (after 0x8F14 (regs [(15, 1), (1, 1)])).reg 15 = 0 ∧
    (after 0x81F4 (regs [(1, 1), (15, 0xFF)])).reg 1 = 0 ∧ (after 0x81F4 (regs [(1, 1), (15, 0xFF)])).reg 15 = 1 := by decide
/-- R127. -/
theorem test_sub : (after 0x8125 (regs [(1, 0x10), (2, 0x20)])).reg 1 = 0xF0 ∧
    (after 0x8125 (regs [(1, 0x10), (2, 0x20)])).reg 15 = 0 := by decide
theorem test_sub_equal : (after 0x8125 (regs [(1, 5), (2, 5)])).reg 15 = 1 ∧
    (after 0x8F15 (regs [(15, 3), (1, 5)])).reg 15 = 0 := by decide
/-- R128. -/
theorem test_shr : (after 0x8126 (regs [(1, 5), (2, 0xAA)])).reg 1 = 2 ∧ (after 0x8126 (regs [(1, 5)])).reg 15 = 1 ∧
    (after 0x8F16 (regs [(15, 2)])).reg 15 = 0 := by decide
/-- R129. -/
theorem test_subn : (after 0x8127 (regs [(1, 0x20), (2, 0x10)])).reg 1 = 0xF0 ∧
    (after 0x8127 (regs [(1, 0x20), (2, 0x10)])).reg 15 = 0 := by decide
/-- R130. -/
theorem test_shl : (after 0x812E (regs [(1, 0x81), (2, 0x55)])).reg 1 = 2 ∧ (after 0x812E (regs [(1, 0x81)])).reg 15 = 1 ∧
    (after 0x8F1E (regs [(15, 0x7F)])).reg 15 = 0 := by decide
/-- R140. -/
theorem test_ldI : (after 0xA2F0 State.reset).i = 0x2F0 := by decide
/-- R141. -/
theorem test_addI : (after 0xF11E ((regs [(1, 1)]).setI 0xFFF)).i = 0 ∧
    (after 0xF11E ((regs [(1, 0xFF)]).setI 0xF80)).i = 0x07F := by decide
/-- R142. -/
theorem test_ldF : (after 0xF129 (regs [(1, 0x0F)])).i = 0x04B ∧ (after 0xF129 (regs [(1, 0xFF)])).i = 0x4FB := by decide
/-- R131: what holds for every drawn byte. -/
theorem test_rnd : (after 0xC3FF State.reset).draws = 1 ∧ (after 0xC3FF State.reset).pc = 0x202 := by decide
/-- 95_test_vectors: `D011` wraps on the right edge, and the example of R161. -/
theorem test_drw : (after 0xD011 (bytes ((regs [(0, 60), (1, 31)]).setI 0x300) 0x300 [0xFF])).fb[31] =
    0xF00000000000000F#64 ∧ (after 0xD015 State.reset).cell 258 = true ∧ (after 0xD015 State.reset).cell 66 = false := by decide
/-- 95_test_vectors: collision, and a sprite row beyond memory. -/
theorem test_drw_collision : (after 0xD011 (bytes ({ regs [(15, 9)] with fb := flipCell State.reset.fb 2, i := 0x300 }) 0x300
    [0xF0])).reg 15 = 1 ∧ (after 0xD012 (State.reset.setI 0xFFF)).fault = some .addressOutOfRange := by decide
/-- R170, R171 with the index masked. -/
theorem test_skp : (after 0xE29E ((regs [(2, 0x15)]).setKeyLevel 5 true)).pc = 0x204 ∧
    (after 0xE29E (regs [(2, 5)])).pc = 0x202 := by decide
theorem test_sknp : (after 0xE2A1 ((regs [(2, 0x15)]).setKeyLevel 5 true)).pc = 0x202 ∧
    (after 0xE2A1 (regs [(2, 5)])).pc = 0x204 := by decide
/-- R172 (S9). -/
theorem test_ldVxKey : (after 0xF30A State.reset).awaitingKey = some 3 ∧ (after 0xF30A State.reset).pc = 0x200 := by decide
theorem test_wait_completes : (perform .step (setKey (after 0xF30A State.reset) 0xA true)).1.reg 3 = 0x0A ∧
    (perform .step (setKey (after 0xF30A State.reset) 0xA true)).1.pc = 0x202 := by decide
/-- R173 to R175. -/
theorem test_ldVxDt : (after 0xF407 (State.reset.setDt 0x3C)).reg 4 = 0x3C := by decide
theorem test_ldDtVx : (after 0xF415 (regs [(4, 0x3C)])).dt = 0x3C := by decide
theorem test_ldStVx : (after 0xF518 (regs [(5, 2)])).st = 2 ∧ answer 0xF518 (regs [(5, 2)]) = .stepped false true := by decide
/-- R143. -/
theorem test_ldB : (after 0xF533 ((regs [(5, 0x9C)]).setI 0x300)).byteAt 0x300 = 1 ∧
    (after 0xF533 ((regs [(5, 0x9C)]).setI 0x300)).byteAt 0x301 = 5 ∧
    (after 0xF533 ((regs [(5, 0x9C)]).setI 0x300)).byteAt 0x302 = 6 := by decide
theorem test_ldB_faults : (after 0xF033 (State.reset.setI 0x04E)).fault = some .fontWrite ∧
    (after 0xF033 (State.reset.setI 0xFFE)).fault = some .addressOutOfRange := by decide
/-- R144. -/
theorem test_storeRegs : (after 0xF255 ((regs [(0, 0x11), (1, 0x22), (2, 0x33)]).setI 0x400)).mem =
    [(0x200, 0xF2), (0x201, 0x55), (0x400, 0x11), (0x401, 0x22), (0x402, 0x33)] := by decide
theorem test_storeRegs_faults : (after 0xF055 (State.reset.setI 0x04F)).fault = some .fontWrite ∧
    (after 0xF255 (State.reset.setI 0xFFE)).fault = some .addressOutOfRange := by decide
/-- R145. -/
theorem test_loadRegs : (after 0xF465 State.reset).reg 4 = 0xF0 ∧ (after 0xF165 (State.reset.setI 0x200)).reg 1 = 0x65 := by
  decide
theorem test_loadRegs_faults : (after 0xF265 (State.reset.setI 0xFFE)).fault = some .addressOutOfRange := by decide

/-! ### The host's transactions (95_test_vectors part 2) -/

theorem test_tick : (tick ((State.reset.setDt 2).setSt 1)).dt = 1 ∧ (tick ((State.reset.setDt 2).setSt 1)).st = 0 ∧
    (tick State.reset).dt = 0 := by decide
theorem test_setKey_first_press : (setKey (setKey (after 0xF30A State.reset) 4 true) 9 true).keyEvent = some 4 ∧
    (setKey State.reset 4 true).keyEvent = none := by decide
theorem test_load_error : (loadProgram State.reset (List.replicate 3585 0xBB)).2 = .loadError := by
  unfold loadProgram
  rw [if_pos (by rw [List.length_replicate]; decide)]
theorem test_codes : faultCode .unknownOpcode = 1 ∧ faultCode .fontWrite = 5 ∧ loadErrorCode = 16 := by decide

/-! ### Witnesses: the hypotheses of the statements can be met, clause by clause, at the ends of their ranges -/

/-- A state about to execute a word. -/
def at' (w : Nat) (s : State) : State := s.withFetchWord 16 w

/-- A faulted core. -/
def faulted : State := { State.reset with fault := some .stackOverflow }

theorem witness_decode : decode 0x8124 = .ok (.addReg 1 2) ∧ legalWord 0x8124 = true ∧ legalWord 0x8128 = false ∧
    (∃ r ∈ opcodeRows, r.accepts 0x8124 = true) := by decide
theorem witness_StepRunsDecodedInstruction : Running (at' 0x1234 (State.reset.setPc 0xFFE)) ∧
    (at' 0x1234 (State.reset.setPc 0xFFE)).pc.toNat = 0xFFE ∧
    decode ((at' 0x1234 (State.reset.setPc 0xFFE)).byteAt 0xFFE ++ (at' 0x1234 (State.reset.setPc 0xFFE)).byteAt 0xFFF) =
      .ok (.jp 0x234) := ⟨⟨rfl, rfl⟩, by decide⟩
theorem witness_FetchBeyondMemoryFaults : Running (State.reset.setPc 0xFFF) ∧ 0xFFE < (State.reset.setPc 0xFFF).pc.toNat :=
  ⟨⟨rfl, rfl⟩, by decide⟩
theorem witness_IllegalWordFaults : Running State.reset ∧ State.reset.pc.toNat ≤ 0xFFE ∧
    legalWord (State.reset.byteAt State.reset.pc.toNat ++ State.reset.byteAt (State.reset.pc.toNat + 1)) = false :=
  ⟨⟨rfl, rfl⟩, by decide⟩
theorem witness_StepIsTotal : State.reset.fault = none ∧ faulted.fault = some .stackOverflow := by decide
theorem witness_WaitStepCompletesOnPress : (State.reset.await 3).fault = none ∧ (State.reset.await 3).awaitingKey = some 3 ∧
    (State.reset.await 3).keyEvent = none ∧ { State.reset.await 3 with keyEvent := some 15 }.keyEvent = some (15 : Key) := by
  decide
theorem witness_StepReportsDisplayAndTone : ∃ t, step (at' 0x00E0 State.reset) = .next t ∧ t.fault = none := ⟨_, rfl, rfl⟩
theorem witness_UnreportedStepKeepsDisplay : ∃ t, perform .step (at' 0x6A2C State.reset) = (t, .stepped false false) :=
  ⟨_, rfl⟩
theorem witness_StepMovesTimers : (after 0xF415 (regs [(4, 1)])).dt ≠ 0 ∧ (after 0xF418 (regs [(4, 1)])).st ≠ 0 ∧
    (after 0xF415 (regs [(4, 1)])).fault = none ∧ (after 0xF418 (regs [(4, 1)])).fault = none := by decide
theorem witness_StepChangesStorage : (after 0xF055 ((regs [(0, 1)]).setI 0x300)).byteAt 0x300 ≠ 0 ∧
    (after 0x2300 State.reset).sp ≠ 0 ∧ (after 0xD015 State.reset).cell 0 ≠ false ∧ (after 0xA001 State.reset).i ≠ 0 := by
  decide
theorem witness_RandomByte : ∃ t, step (at' 0xC3FF State.reset) = .next t ∧ t.fault = none := ⟨_, rfl, rfl⟩
theorem witness_FaultsOnlyWhereRaised : (after 0x0000 State.reset).fault = some .unknownOpcode ∧
    (after 0x2300 (stacked 16 0 0)).fault = some .stackOverflow ∧ (after 0x00EE State.reset).fault = some .stackUnderflow ∧
    (after 0xD012 (State.reset.setI 0xFFF)).fault = some .addressOutOfRange ∧
    (after 0xF055 (State.reset.setI 0x04F)).fault = some .fontWrite := by decide
theorem witness_MemoryInstructionsFault : (State.reset.setI 0x04F).i.toNat ≤ 0x04F ∧
    0xFFF < (State.reset.setI 0xFFE).i.toNat + 2 ∧ 0xFFF < (State.reset.setI 0xFFF).i.toNat + (1 : Reg).val ∧
    0 < (2 : BitVec 4).toNat ∧ 0xFFF < (State.reset.setI 0xFFF).i.toNat + (2 : BitVec 4).toNat - 1 := by decide
theorem witness_OnlyResetClearsFault : faulted.fault = some .stackOverflow ∧ Transaction.tick ≠ .reset := by decide
/-- The invariant holds of a state about to execute an instruction, which answers a next state. -/
theorem witness_StepKeepsInvariant : Inv (at' 0x2300 State.reset) ∧ ∃ t, step (at' 0x2300 State.reset) = .next t := by
  refine ⟨⟨by decide, fun _ => ⟨⟨by decide, ?_, fun _ => rfl, by decide⟩, fun h => absurd rfl h, ?_⟩⟩, _, rfl⟩
  · unfold FontIntact
    decide
  · intro j h hj
    exact absurd hj (Nat.not_lt_zero j)
theorem witness_ReachableStatesKeepStateRules : Reachable (perform .tick State.reset).1 ∧
    (perform .tick State.reset).1.fault = none := ⟨.perform .tick .reset, rfl⟩
theorem witness_jumps : (0xFFF : BitVec 12).toNat = 0xFFF ∧ Running State.reset ∧
    0xFFE < (0xFFF : BitVec 12).toNat + (State.reset.reg 0).toNat := ⟨by decide, ⟨rfl, rfl⟩, by decide⟩
theorem witness_CallPushesAndJumps : (stacked 15 0 0).sp.val < 16 ∧ (stacked 16 0 0).sp.val = 16 := by decide
theorem witness_ReturnPops : 0 < (stacked 1 0 0).sp.val ∧ 0 < (stacked 16 0 0).sp.val ∧ State.reset.sp.val = 0 := by decide
theorem witness_ReturnUndoesCall : (stacked 15 0 0).sp.val < 16 ∧
    (after 0x2300 (stacked 15 0 0)).sp = (after 0x2300 (stacked 15 0 0)).sp := by decide
theorem witness_ConditionalSkips : (regs [(3, 0x2A)]).reg 3 = 0x2A ∧ State.reset.reg 3 ≠ 0x2A ∧
    (regs [(1, 7), (2, 7)]).reg 1 = (regs [(1, 7), (2, 7)]).reg 2 ∧ (regs [(1, 7)]).reg 1 ≠ (regs [(1, 7)]).reg 2 := by decide
theorem witness_GlyphAddress : FontIntact State.reset ∧ ((regs [(1, 15)]).reg 1).toNat ≤ 15 := by
  unfold FontIntact
  decide
theorem witness_DecimalDigitsStored : Memory.wf State.reset.mem ∧ 0x050 ≤ (State.reset.setI 0x050).i.toNat ∧
    (State.reset.setI 0x050).i.toNat + 2 ≤ 0xFFF ∧ 0x050 ≤ (State.reset.setI 0xFFD).i.toNat ∧
    (State.reset.setI 0xFFD).i.toNat + 2 ≤ 0xFFF := by decide
theorem witness_RegistersStored : Memory.wf State.reset.mem ∧ 0x050 ≤ (State.reset.setI 0x050).i.toNat ∧
    0x050 ≤ (State.reset.setI 0xFF0).i.toNat ∧ (State.reset.setI 0xFF0).i.toNat + (15 : Reg).val ≤ 0xFFF := by decide
theorem witness_RegistersLoaded : (State.reset.setI 0xFFF).i.toNat + (0 : Reg).val ≤ 0xFFF ∧
    State.reset.i.toNat + (15 : Reg).val ≤ 0xFFF := by decide
theorem witness_LoadUndoesStore : Memory.wf State.reset.mem ∧ 0x050 ≤ (State.reset.setI 0x300).i.toNat ∧
    (State.reset.setI 0x300).i.toNat + (1 : Reg).val ≤ 0xFFF ∧
    ((after 0xF155 (State.reset.setI 0x300)).setDt 1).mem = (after 0xF155 (State.reset.setI 0x300)).mem ∧
    ((after 0xF155 (State.reset.setI 0x300)).setDt 1).i = (after 0xF155 (State.reset.setI 0x300)).i := by decide
theorem witness_StoreSeenByNextFetch : Memory.wf State.reset.mem ∧ 1 ≤ (1 : Reg).val ∧
    0x050 ≤ ((State.reset.setI 0xFFE).setPc 0xFFE).i.toNat ∧
    ((State.reset.setI 0xFFE).setPc 0xFFE).i.toNat + (1 : Reg).val ≤ 0xFFF ∧
    ((State.reset.setI 0xFFE).setPc 0xFFE).pc = ((State.reset.setI 0xFFE).setPc 0xFFE).i := by decide
theorem witness_ClearDisplay : Running (at' 0x00E0 State.reset) ∧ fetchInstr (at' 0x00E0 State.reset) = .ok .cls :=
  ⟨⟨rfl, rfl⟩, rfl⟩
theorem witness_DrawInvertsSpriteCells : (State.reset.setI 0xFFF).i.toNat + (1 : BitVec 4).toNat ≤ 0x1000 ∧
    (State.reset.setI 0x1000).i.toNat + (0 : BitVec 4).toNat ≤ 0x1000 ∧ SpriteLights State.reset 0 0 1 3 ∧
    ¬SpriteLights State.reset 0 0 0 3 :=
  ⟨by decide, by decide, ⟨0, 3, by decide⟩, fun ⟨_, _, h, _⟩ => absurd h (Nat.not_lt_zero _)⟩
theorem witness_DrawTwiceRestoresDisplay : (0 : Reg) ≠ 15 ∧ (14 : Reg) ≠ 15 ∧
    State.reset.i.toNat + (15 : BitVec 4).toNat ≤ 0x1000 := by decide
theorem witness_KeySkips : (State.reset.setKeyLevel 5 true).k[((regs [(2, 0x15)]).reg 2).toNat % 16] = true ∧
    State.reset.k[((regs [(2, 0x15)]).reg 2).toNat % 16] = false := by decide
theorem witness_KeyWaitScenario : Running (at' 0xF30A State.reset) ∧
    fetchInstr (at' 0xF30A State.reset) = .ok (.ldVxKey 3) ∧ (at' 0xF30A State.reset).key 10 = false :=
  ⟨⟨rfl, rfl⟩, rfl, rfl⟩
theorem witness_SoundTimerSet : Running (at' 0xF518 State.reset) ∧ fetchInstr (at' 0xF518 State.reset) = .ok (.ldStVx 5) :=
  ⟨⟨rfl, rfl⟩, rfl⟩
theorem witness_TickCountsDown : (State.reset.setDt 1).fault = none ∧ (State.reset.await 3).fault = none ∧ faulted.fault = some .stackOverflow := by decide
theorem witness_KeyReportLatchesFirstPress : (State.reset.await 3).fault = none ∧ (State.reset.await 3).key 4 = false ∧
    (State.reset.await 3).awaitingKey ≠ none ∧ (State.reset.await 3).keyEvent = none ∧ State.reset.awaitingKey = none := by
  decide
theorem witness_LoadCopiesImageOrFails : State.reset.fault = none ∧ Memory.wf State.reset.mem ∧
    (List.replicate 3584 (0xAA : Byte)).length ≤ 3584 ∧ 3584 < (List.replicate 3585 (0xBB : Byte)).length :=
  ⟨rfl, by decide, by rw [List.length_replicate], by rw [List.length_replicate]; decide⟩
theorem witness_FirstFetchReadsImage : (List.replicate 3582 (0xAA : Byte)).length + 2 ≤ 3584 := by
  rw [List.length_replicate]
theorem witness_IdlePointIsFixed : Idle (at' 0x1200 State.reset) := ⟨⟨rfl, rfl⟩, 0x200, rfl, rfl⟩

end Sys2Proof.Tests
end

section
/-! PROOFS. The family of 10_state.md: the machine's invariant (rule R35) at reset, over a step, over a transaction and over
every schedule, and the state `reset()` leaves (rules R34, R240).

The order: what each update of the state does to `Inv`; the instructions, from the state the fetch and the advance leave;
the step; the transactions; the reachable states. -/

namespace Sys2Proof

open Machine

/-! ### The reset memory -/

/-- An unlisted address of the font area reads as its font byte. -/
theorem unlisted_font {j : Nat} (h : j < 80) : Memory.unlisted j = (Config.font[j]?).getD 0 := by
  simp [Memory.unlisted, h]

/-- An unlisted address above the font area reads as 0. -/
theorem unlisted_above_font {a : Nat} (h : 80 ≤ a) : Memory.unlisted a = 0 := by
  simp [Memory.unlisted, show ¬a < 80 by omega]

/-- The font is intact in a memory that lists nothing. -/
theorem fontIntact_of_mem_nil {s : State} (h : s.mem = []) : FontIntact s := by
  intro j hj
  rw [State.byteAt, h, Memory.read_nil, Config.fontBase_eq, Nat.zero_add]
  exact unlisted_font hj

/-! ### The invariant over the updates of the state -/

/-- The invariant passes from one state to another with the same fault status when the rules that hold without a fault do. -/
theorem Inv.transfer {s t : State} (h : Inv s) (wf : Memory.wf t.mem) (fault : t.fault = s.fault)
    (rules : StateRules s → ControlRules s → StateRules t ∧ ControlRules t) : Inv t :=
  ⟨wf, fun hf => rules (h.2 (fault.symm.trans hf)).1 (h.2 (fault.symm.trans hf)).2⟩

/-- The invariant says nothing of the registers, the display, the timers, the key levels and the counter of draws. -/
theorem Inv.of_unruled {s : State} (h : Inv s) (v : Vector Byte 16) (fb : Vector (BitVec 64) 32) (dt st : Byte)
    (k : Vector Bool 16) (draws : Nat) :
    Inv { s with v := v, fb := fb, dt := dt, st := st, k := k, draws := draws } :=
  h.transfer h.1 rfl fun r c => ⟨⟨r.index, r.font, r.event, r.counter⟩, c.waiting, c.returns⟩

/-- A transfer of control outside a wait, to at most the farthest target `0xFFF + 0xFF` of `BNNN`. -/
theorem Inv.setPc {s : State} {w : Word} (h : Inv s) (ha : s.awaitingKey = none) (hw : w.toNat ≤ 0x10FE) :
    Inv (s.setPc w) :=
  h.transfer h.1 rfl fun r c => ⟨⟨r.index, r.font, r.event, hw⟩, fun hn => absurd ha hn, c.returns⟩

theorem Inv.setI {s : State} {w : Word} (h : Inv s) (hw : w.toNat ≤ 0xFFF) : Inv (s.setI w) :=
  h.transfer h.1 rfl fun r c => ⟨⟨hw, r.font, r.event, r.counter⟩, c.waiting, c.returns⟩

/-- A run of writes above the font area leaves the font intact. -/
theorem FontIntact.writeAll {s : State} (h : FontIntact s) {a : Nat} (bs : List Byte) (ha : 0x050 ≤ a) :
    FontIntact (s.setMem (Memory.writeAll s.mem a bs)) := by
  intro j hj
  have hja : Config.fontBase + j < a := by
    rw [Config.fontBytes_eq] at hj
    rw [Config.fontBase_eq]
    omega
  exact (Memory.read_writeAll_outside s.mem bs (.inl hja)).trans (h j hj)

/-- A run of writes between the font area and the end of memory keeps the invariant. -/
theorem Inv.writeAll {s : State} (h : Inv s) {a : Nat} {bs : List Byte} (ha : 0x050 ≤ a)
    (hl : a + bs.length ≤ 0x1000) : Inv (s.setMem (Memory.writeAll s.mem a bs)) :=
  h.transfer (Memory.wf_writeAll h.1 bs hl) rfl fun r c =>
    ⟨⟨r.index, r.font.writeAll bs ha, r.event, r.counter⟩, c.waiting, c.returns⟩

/-- A push of an advanced `pc` keeps the invariant: the new entry is a live return address of rule R14. -/
theorem Inv.push {s t : State} {w : Word} (h : Inv s) (hw : w.toNat ≤ 0x1000) (e : s.push w = .ok t) : Inv t := by
  by_cases hsp : s.sp.val < 16
  · rw [State.push_room s w hsp] at e
    cases e
    refine h.transfer h.1 rfl fun r c => ⟨⟨r.index, r.font, r.event, r.counter⟩, c.waiting, fun j hj hjs => ?_⟩
    simp only [Vector.getElem_set]
    split
    · exact hw
    · exact c.returns j hj (by simp only at hjs; omega)
  · rw [State.push_full s w (by omega)] at e
    cases e

/-- A pop keeps the invariant, and the entry it takes is a return address of rule R14. -/
theorem Inv.pop {s t : State} {w : Word} (h : Inv s) (hf : s.fault = none) (e : s.pop = .ok (w, t)) :
    w.toNat ≤ 0x1000 ∧ Inv t := by
  by_cases hsp : s.sp.val = 0
  · rw [State.pop_empty s hsp] at e
    cases e
  · rw [State.pop_live s hsp] at e
    cases e
    constructor
    · exact (h.2 hf).2.returns _ (by omega) (by omega)
    · exact h.transfer h.1 rfl fun r c => ⟨⟨r.index, r.font, r.event, r.counter⟩, c.waiting,
        fun j hj hjs => c.returns j hj (by simp only at hjs; omega)⟩

/-- Entering the key wait at a `pc` that can be fetched from. -/
theorem Inv.await {s : State} (h : Inv s) (x : Reg) {w : Word} (hw : w.toNat ≤ 0xFFE) :
    Inv ((s.await x).setPc w) :=
  h.transfer h.1 rfl fun r c =>
    ⟨⟨r.index, r.font, fun _ => rfl, by rw [State.setPc_pc]; omega⟩, fun _ => hw, c.returns⟩

theorem Inv.endWait {s : State} (h : Inv s) : Inv s.endWait :=
  h.transfer h.1 rfl fun r c => ⟨⟨r.index, r.font, fun _ => rfl, r.counter⟩, fun hn => absurd rfl hn, c.returns⟩

/-- A new content of the latch, empty outside a wait. -/
theorem Inv.setKeyEvent {s : State} (h : Inv s) {e : Option Key}
    (he : s.awaitingKey = none → s.keyEvent = none → e = none) : Inv { s with keyEvent := e } :=
  h.transfer h.1 rfl fun r c =>
    ⟨⟨r.index, r.font, fun ha => he ha (r.event ha), r.counter⟩, c.waiting, c.returns⟩

/-- With a fault the invariant asks for no more than memory in canonical form. -/
theorem Inv.of_fault {s : State} {c : Fault} (hm : Memory.wf s.mem) (hf : s.fault = some c) : Inv s :=
  ⟨hm, fun hn => absurd (hf.symm.trans hn) (Option.some_ne_none c)⟩

theorem inv_raise (s : State) (f : Fault) : Inv (s.raise f) :=
  .of_fault (s.wf_raise f) (s.raise_fault f)

/-! ### The ranges of the address operands -/

@[simp] theorem addressOperand_toNat (nnn : BitVec 12) : (addressOperand nnn).toNat = nnn.toNat := by
  rw [addressOperand, BitVec.toNat_setWidth_of_le (by decide)]

theorem offsetOperand_le (s : State) (nnn : BitVec 12) : (offsetOperand s nnn).toNat ≤ 0x10FE := by
  have hn := nnn.isLt
  have hv := (s.reg 0).isLt
  have hw : ((s.reg 0).setWidth 16).toNat = (s.reg 0).toNat := BitVec.toNat_setWidth_of_le (by decide)
  rw [offsetOperand, BitVec.toNat_add, addressOperand_toNat, hw]
  omega

theorem indexSum_le (s : State) (x : Reg) : (indexSum s x).toNat ≤ 0xFFF := by
  rw [indexSum, BitVec.toNat_ofNat]
  omega

theorem glyphOperand_le (b : Byte) : (glyphOperand b).toNat ≤ 0xFFF := by
  have hb := b.isLt
  have hlt : b.toNat * 5 < 2 ^ 16 := by omega
  rw [glyphOperand, BitVec.toNat_ofNat, Config.fontBase_eq, Nat.zero_add, Nat.mod_eq_of_lt hlt]
  omega

/-! ### The stack operations keep the wait -/

theorem push_awaitingKey {s t : State} {w : Word} (e : s.push w = .ok t) : t.awaitingKey = s.awaitingKey := by
  unfold State.push at e
  split at e <;> cases e
  rfl

theorem pop_awaitingKey {s t : State} {w : Word} (e : s.pop = .ok (w, t)) : t.awaitingKey = s.awaitingKey := by
  unfold State.pop at e
  split at e <;> cases e
  rfl

/-! ### The instructions -/

/-- The state a meaning begins in: the invariant holds, the core runs, and `pc` is an advanced fetch address (rule R82). -/
structure Executing (s : State) : Prop where
  inv : Inv s
  running : Running s
  advanced : 2 ≤ s.pc.toNat
  counter : s.pc.toNat ≤ 0x1000

/-- Fetch and advance lead from a running state with the invariant to a state a meaning may begin in. -/
theorem executing_advance {s : State} {i : Instr} (h : Inv s) (hr : Running s) (hi : fetchInstr s = .ok i) :
    Executing (advance s) := by
  have hpc := advance_pc_toNat (pc_of_fetchInstr hi)
  have hle := pc_of_fetchInstr hi
  exact ⟨h.setPc hr.2 (by rw [← advance_pc]; omega), hr, by omega, by omega⟩

/-- If the outcome is a next state, it has the invariant. -/
def LeavesInv (o : Host.Outcome State Fault Refusal) : Prop := ∀ t, o = .next t → Inv t

theorem LeavesInv.next {t : State} (h : Inv t) : LeavesInv (.next t) := by
  rintro _ ⟨⟩
  exact h

/-- Fault entry leaves the invariant from any state whatever. -/
theorem LeavesInv.raise (s : State) (f : Fault) : LeavesInv (.next (s.raise f)) := .next (inv_raise s f)

section
variable {s : State} (h : Executing s)
include h

/-- The skip instructions reach at most `0x1002`. -/
theorem Executing.inv_skipIf (c : Bool) : Inv (s.skipIf c) := by
  have hpc := h.counter
  rw [State.skipIf_eq]
  refine h.inv.setPc h.running.2 ?_
  split
  · rw [BitVec.toNat_add_of_lt] <;> simp <;> omega
  · omega

/-- `1NNN` and `2NNN` reach at most `0xFFF`. -/
theorem Executing.inv_jump (nnn : BitVec 12) : Inv (s.setPc (addressOperand nnn)) :=
  h.inv.setPc h.running.2 (by rw [addressOperand_toNat]; omega)

/-- `BNNN` reaches at most `0xFFF + 0xFF`. -/
theorem Executing.inv_jumpOffset (nnn : BitVec 12) : Inv (s.setPc (offsetOperand s nnn)) :=
  h.inv.setPc h.running.2 (offsetOperand_le s nnn)

theorem Executing.leavesInv_call (nnn : BitVec 12) : LeavesInv (execCall nnn s) := by
  unfold execCall
  split
  · rename_i t e
    have ha : t.awaitingKey = none := (push_awaitingKey e).trans h.running.2
    exact .next ((h.inv.push h.counter e).setPc ha (by rw [addressOperand_toNat]; omega))
  · exact .raise s _

theorem Executing.leavesInv_ret : LeavesInv (execRet s) := by
  unfold execRet
  split
  · rename_i w t e
    have ha : t.awaitingKey = none := (pop_awaitingKey e).trans h.running.2
    obtain ⟨hw, ht⟩ := h.inv.pop h.running.1 e
    exact .next (ht.setPc ha (by omega))
  · exact .raise s _

/-- `FX0A` waits at the address it was fetched from. -/
theorem Executing.inv_await (x : Reg) : Inv ((s.await x).setPc (s.pc - 2)) := by
  have hpc := h.counter
  have hadv := h.advanced
  refine h.inv.await x ?_
  rw [BitVec.toNat_sub_of_le] <;> simp [BitVec.le_def] <;> omega

/-- `FX33` and `FX55` store between the font area and the end of memory, or raise. -/
theorem Executing.leavesInv_store (a : Nat) {bs : List Byte} (hb : bs ≠ []) :
    LeavesInv (settle s (memWriteBytes s a bs)) := by
  rcases memWriteBytes_cases s a hb with ⟨ha, hl, e⟩ | ⟨-, e⟩ | ⟨-, -, e⟩ <;> rw [e]
  · exact .next (h.inv.writeAll ha hl)
  · exact .raise s _
  · exact .raise s _

theorem Executing.leavesInv_loadRegs (x : Reg) : LeavesInv (execLoadRegs x s) := by
  unfold execLoadRegs
  split
  · exact .next (h.inv.of_unruled ..)
  · exact .raise s _

theorem Executing.leavesInv_drw (x y : Reg) (n : BitVec 4) : LeavesInv (execDrw x y n s) := by
  unfold execDrw
  split
  · exact .next (h.inv.of_unruled ..)
  · exact .raise s _

/-- Every instruction leaves the invariant. -/
theorem Executing.leavesInv_exec (i : Instr) : LeavesInv (exec i s) := by
  cases i with
  | cls | ldImm | addImm | ldReg | or | and | xor | addReg | sub | shr | subn | shl | rnd | ldVxDt | ldDtVx | ldStVx =>
    exact .next (h.inv.of_unruled ..)
  | seImm | sneImm | seReg | sneReg | skp | sknp => exact .next (h.inv_skipIf _)
  | jp nnn => exact .next (h.inv_jump nnn)
  | jpV0 nnn => exact .next (h.inv_jumpOffset nnn)
  | call nnn => exact h.leavesInv_call nnn
  | ret => exact h.leavesInv_ret
  | ldI nnn => exact .next (h.inv.setI (by rw [addressOperand_toNat]; omega))
  | addI x => exact .next (h.inv.setI (indexSum_le s x))
  | ldF x => exact .next (h.inv.setI (glyphOperand_le (s.reg x)))
  | ldB x => exact h.leavesInv_store _ (by simp [decimalDigits])
  | storeRegs x => exact h.leavesInv_store _ (rangeOperand_ne_nil s x)
  | loadRegs x => exact h.leavesInv_loadRegs x
  | drw x y n => exact h.leavesInv_drw x y n
  | ldVxKey x => exact .next (h.inv_await x)

end

/-! ### The step -/

/-- The wait step keeps the invariant: the waiting `pc` can be fetched from, so its advance reaches at most `0x1000`. -/
theorem Inv.waitStep {s : State} {x : Reg} (h : Inv s) (hf : s.fault = none) (ha : s.awaitingKey = some x) :
    Inv (waitStep x s) := by
  cases hk : s.keyEvent with
  | none => rwa [waitStep_none hk]
  | some k =>
    have hpc : s.pc.toNat ≤ 0xFFE := (h.2 hf).2.waiting (by simp [ha])
    rw [waitStep_some hk]
    refine (h.endWait.of_unruled ..).setPc rfl ?_
    rw [← advance_pc, advance_pc_toNat hpc]
    omega

/-- Settles O20: a step is a wait step, a fault entry, or an instruction from the state the advance leaves. -/
theorem stepKeepsInvariant : Obligations.StepKeepsInvariant := by
  intro s t h e
  obtain ⟨hf, ⟨x, ha, rfl⟩ | ⟨-, f, -, rfl⟩ | ⟨ha, i, hi, e⟩⟩ := step_cases e
  · exact h.waitStep hf ha
  · exact inv_raise s f
  · exact (executing_advance h ⟨hf, ha⟩ hi).leavesInv_exec i t e

/-! ### The transactions -/

/-- In the faulted condition the state redrawn has the invariant, whatever the transaction would leave elsewhere. -/
theorem inv_unlessFaulted {s t : State} (h : s.fault = none → Inv t) : Inv (unlessFaulted s t) := by
  unfold unlessFaulted
  split
  · exact h ‹_›
  · exact ⟨s.wf_redraw, fun hf => absurd hf ‹_›⟩

/-- `reset()` leaves the invariant from any state whatever. -/
theorem inv_resetAll (s : State) : Inv s.resetAll := by
  refine ⟨Memory.wf_reset, fun _ => ⟨⟨?_, fontIntact_of_mem_nil rfl, fun _ => rfl, ?_⟩, fun hn => absurd rfl hn, ?_⟩⟩
  · exact Nat.zero_le _
  · show (0x0200 : Word).toNat ≤ 0x10FE
    decide
  · exact fun j _ hj => absurd hj (Nat.not_lt_zero j)

theorem Inv.tick {s : State} (h : Inv s) : Inv (tick s) :=
  inv_unlessFaulted fun _ => h.of_unruled ..

/-- Outside a wait nothing is latched. -/
theorem latchedEvent_idle {s : State} (ha : s.awaitingKey = none) (k : Key) (p : Bool) :
    latchedEvent s k p = s.keyEvent := by
  simp [latchedEvent, ha]

theorem Inv.setKey {s : State} (h : Inv s) (k : Key) (p : Bool) : Inv (setKey s k p) := by
  refine inv_unlessFaulted fun _ => ?_
  have hlevel : Inv (s.setKeyLevel k p) := h.of_unruled ..
  exact hlevel.setKeyEvent fun ha hk => (latchedEvent_idle (s := s) ha k p).trans hk

/-- The image of `loadProgram` lies above the font area. -/
theorem Inv.loadProgram {s : State} (h : Inv s) (bytes : List Byte) : Inv (loadProgram s bytes).1 := by
  unfold Machine.loadProgram
  split
  · exact inv_unlessFaulted fun _ => h
  · rename_i hlen
    rw [Config.progMax_eq] at hlen
    have hl : Config.progBase + bytes.length ≤ 0x1000 := by rw [Config.progBase_eq]; omega
    exact inv_unlessFaulted fun _ => h.writeAll (by decide) hl

theorem Inv.performStep {s : State} (h : Inv s) : Inv (perform .step s).1 := by
  unfold perform
  dsimp only
  split
  · exact stepKeepsInvariant s _ h ‹_›
  · exact h
  · exact h

/-- Settles O21, transaction by transaction. -/
theorem transactionKeepsInvariant : Obligations.TransactionKeepsInvariant := by
  intro s tr h
  cases tr with
  | reset => exact inv_resetAll s
  | loadProgram bytes => exact h.loadProgram bytes
  | step => exact h.performStep
  | tick => exact h.tick
  | setKey k p => exact h.setKey k p
  | framebuffer => exact h
  | isSoundActive => exact h

/-! ### The reset state and the reachable states -/

/-- Settles O19: the reset state is what `reset()` leaves of itself. -/
theorem invariantHoldsAtReset : Obligations.InvariantHoldsAtReset :=
  inv_resetAll State.reset

/-- Every reachable state has the invariant. -/
theorem inv_of_reachable {s : State} (h : Reachable s) : Inv s := by
  induction h with
  | reset => exact invariantHoldsAtReset
  | perform tr _ ih => exact transactionKeepsInvariant _ tr ih

/-- Settles O22, by the invariant of the reachable states. -/
theorem reachableStatesKeepStateRules : Obligations.ReachableStatesKeepStateRules :=
  fun _ h hf => ((inv_of_reachable h).2 hf).1

/-- Settles O54: `reset()` leaves the reset state but for the counter of draws. -/
theorem resetLeavesResetState : Obligations.ResetLeavesResetState := by
  intro s
  refine ⟨s.resetAll, rfl, fun r => ?_, rfl, rfl, rfl, fun j hj => ?_, fontIntact_of_mem_nil rfl, fun a ha _ => ?_,
    fun c _ => cellOf_blank c, rfl, rfl, fun k => ?_, rfl, rfl, rfl⟩
  · exact Vector.getElem_replicate _
  · exact Vector.getElem_replicate _
  · exact unlisted_above_font ha
  · exact Vector.getElem_replicate _

end Sys2Proof
end

section
/-! PROOFS. The family of 20_memory.md: the fetch beyond memory (rule R44), the faults of the memory instructions (rules R42,
R43), a stored byte seen by the next fetch (rule R51), and which instructions change memory, stack, display and index
register (rules R53, R12).

The order: the faults; the store and the fetch behind it; what a completed instruction leaves of the storage; the step. -/

namespace Sys2Proof

open Machine

/-! ### Fault entry of a step and of an instruction -/

/-- A fetch beyond memory raises before anything is decoded. -/
theorem fetchInstr_beyond (s : State) (h : 0xFFE < s.pc.toNat) : fetchInstr s = .error .addressOutOfRange := by
  rw [fetchInstr, fetch_beyond s h]

/-- What the host gets from a step that answers a next state. -/
theorem perform_step_next {s t : State} (h : step s = .next t) : perform .step s = (t, stepResponse s t) := by
  simp only [perform, h]

/-- The host gets the cause from the step that takes the fault entry. -/
theorem stepResponse_raise (s : State) (f : Fault) : stepResponse s (s.raise f) = .stepError f := rfl

/-- Settles O7: the fetch raises, so the step takes the fault entry. -/
theorem fetchBeyondMemoryFaults : Obligations.FetchBeyondMemoryFaults := by
  rintro s ⟨hf, ha⟩ hpc
  have hstep : step s = .next (s.raise .addressOutOfRange) := step_raises hf ha (fetchInstr_beyond s hpc)
  refine ⟨_, hstep, s.raise_fault _, ?_⟩
  rw [perform_step_next hstep, stepResponse_raise]

/-! ### The faults of the memory instructions -/

/-- `FX33` stores the three digits from `I` upward (rule R143). -/
theorem exec_ldB (x : Reg) (s : State) :
    exec (.ldB x) s = settle s (memWriteBytes s s.i.toNat (decimalDigits (s.reg x))) := rfl

/-- `FX55` stores the registers up to `V[X]` from `I` upward (rule R144). -/
theorem exec_storeRegs (x : Reg) (s : State) :
    exec (.storeRegs x) s = settle s (memWriteBytes s s.i.toNat (rangeOperand s x)) := rfl

theorem decimalDigits_ne_nil (b : Byte) : decimalDigits b ≠ [] := List.cons_ne_nil _ _

/-- An instruction whose stores fail takes the fault entry with their cause. -/
theorem settle_raises (s : State) {r : Except Fault State} {f : Fault} (h : r = .error f) :
    ∃ t, settle s r = .next t ∧ t.fault = some f :=
  ⟨s.raise f, by rw [h, settle], s.raise_fault f⟩

/-- `FX65` raises when its last byte lies beyond memory. -/
theorem execLoadRegs_beyond (x : Reg) (s : State) (h : 0xFFF < s.i.toNat + x.val) :
    execLoadRegs x s = .next (s.raise .addressOutOfRange) := by
  have hread : memReadBytes s (effectiveAddress s 0) (rangeLength x) = .error .addressOutOfRange :=
    memReadBytes_beyond s (by rw [effectiveAddress_eq, rangeLength]; omega) (Nat.succ_pos _)
  rw [execLoadRegs, hread]

/-- `DXYN` raises when the last row of its sprite lies beyond memory. -/
theorem execDrw_beyond (x y : Reg) {n : BitVec 4} (s : State) (hn : 0 < n.toNat)
    (h : 0xFFF < s.i.toNat + n.toNat - 1) : execDrw x y n s = .next (s.raise .addressOutOfRange) := by
  have hread : memReadBytes s (effectiveAddress s 0) n.toNat = .error .addressOutOfRange :=
    memReadBytes_beyond s (by rw [effectiveAddress_eq]; omega) hn
  rw [execDrw, hread]

/-- Settles O17: a store that begins in the font raises at its first byte; a store of at most 16 bytes that ends
beyond memory begins above the font, so the end of memory is the first fault it meets. -/
theorem memoryInstructionsFault : Obligations.MemoryInstructionsFault := by
  intro s x y n
  have hx := x.isLt
  rw [exec_ldB, exec_storeRegs]
  refine ⟨fun hi => ?_, fun hi => ?_, fun hi => ?_, fun hi => ?_, fun hi => ?_, fun hn hi => ?_⟩
  · exact settle_raises s (memWriteBytes_font s hi (decimalDigits_ne_nil _))
  · have hend : 0x1000 < s.i.toNat + (decimalDigits (s.reg x)).length := by rw [length_decimalDigits]; omega
    exact settle_raises s (memWriteBytes_beyond s (by omega) hend (decimalDigits_ne_nil _))
  · exact settle_raises s (memWriteBytes_font s hi (rangeOperand_ne_nil s x))
  · have hend : 0x1000 < s.i.toNat + (rangeOperand s x).length := by rw [length_rangeOperand]; omega
    exact settle_raises s (memWriteBytes_beyond s (by omega) hend (rangeOperand_ne_nil s x))
  · exact ⟨_, execLoadRegs_beyond x s hi, s.raise_fault _⟩
  · exact ⟨_, execDrw_beyond x y s hn hi, s.raise_fault _⟩

/-! ### A stored byte and the next fetch -/

/-- `FX55` between the font and the end of memory completes with its bytes written. -/
theorem exec_storeRegs_inside (x : Reg) (s : State) (h : 0x050 ≤ s.i.toNat) (h' : s.i.toNat + x.val ≤ 0xFFF) :
    exec (.storeRegs x) s = .next (s.setMem (Memory.writeAll s.mem s.i.toNat (rangeOperand s x))) := by
  have hend : s.i.toNat + (rangeOperand s x).length ≤ 0x1000 := by rw [length_rangeOperand]; omega
  rw [exec_storeRegs, memWriteBytes_inside s _ h hend, settle]

/-- The registers `FX55` stores read back from where it stores them. -/
theorem byteAt_writeAll_rangeOperand {s : State} (hm : Memory.wf s.mem) (x : Reg) (a : Nat) {j : Nat} (h : j ≤ x.val) :
    (s.setMem (Memory.writeAll s.mem a (rangeOperand s x))).byteAt (a + j) = s.reg ⟨j, by omega⟩ := by
  have hj : j < (rangeOperand s x).length := by rw [length_rangeOperand]; omega
  rw [← getElem_rangeOperand s x h]
  exact Memory.read_writeAll_inside s.mem hm.1 _ hj

/-- Settles O42: the two bytes at the new `pc` are the first two the store wrote. -/
theorem storeSeenByNextFetch : Obligations.StoreSeenByNextFetch := by
  intro x s hm hx hlo hhi hpc
  refine ⟨_, exec_storeRegs_inside x s hlo hhi, ?_⟩
  have hfetch : (s.setMem (Memory.writeAll s.mem s.i.toNat (rangeOperand s x))).pc.toNat ≤ 0xFFE := by
    rw [State.setMem_pc, hpc]
    omega
  have h0 := byteAt_writeAll_rangeOperand hm x s.i.toNat (Nat.zero_le x.val)
  have h1 := byteAt_writeAll_rangeOperand hm x s.i.toNat hx
  rw [Nat.add_zero] at h0
  rw [fetch_inside _ hfetch, State.setMem_pc, hpc, h0, h1]
  rfl

/-! ### What a completed instruction leaves of the storage -/

/-- If the outcome is a next state without a fault, that state has the property. -/
def OnCompletion (P : State → Prop) (o : Host.Outcome State Fault Refusal) : Prop :=
  ∀ t, o = .next t → t.fault = none → P t

theorem OnCompletion.next {P : State → Prop} {t : State} (h : P t) : OnCompletion P (.next t) := by
  rintro _ ⟨⟩ _
  exact h

/-- Fault entry completes nothing. -/
theorem OnCompletion.raise (P : State → Prop) (s : State) (f : Fault) : OnCompletion P (.next (s.raise f)) := by
  rintro _ ⟨⟩ ht
  exact absurd ht (Option.some_ne_none f)

/-- An instruction that ends in stores completes with all of them or not at all. -/
theorem OnCompletion.store {P : State → Prop} {s : State} (a : Nat) {bs : List Byte} (hb : bs ≠ [])
    (h : P (s.setMem (Memory.writeAll s.mem a bs))) : OnCompletion P (settle s (memWriteBytes s a bs)) := by
  rcases memWriteBytes_cases s a hb with ⟨-, -, e⟩ | ⟨-, e⟩ | ⟨-, -, e⟩ <;> rw [e]
  · exact .next h
  · exact .raise P s _
  · exact .raise P s _

/-- Memory, stack, display and index register as they were. -/
structure SameStorage (s t : State) : Prop where
  mem : t.mem = s.mem
  sp : t.sp = s.sp
  stack : t.stack = s.stack
  fb : t.fb = s.fb
  index : t.i = s.i

/-- From `s` to `t` the instruction changed only the storage it may change (rules R53, R12). -/
structure ChangesOnlyItsStorage (i : Instr) (s t : State) : Prop where
  mem : t.mem ≠ s.mem → ∃ x, i = .ldB x ∨ i = .storeRegs x
  stack : t.sp ≠ s.sp ∨ t.stack ≠ s.stack → i = .ret ∨ ∃ nnn, i = .call nnn
  fb : t.fb ≠ s.fb → i = .cls ∨ ∃ x y n, i = .drw x y n
  index : t.i ≠ s.i → (∃ nnn, i = .ldI nnn) ∨ ∃ x, i = .addI x ∨ i = .ldF x

theorem SameStorage.changesOnly {i : Instr} {s t : State} (h : SameStorage s t) : ChangesOnlyItsStorage i s t where
  mem := absurd h.mem
  stack := Or.rec (absurd h.sp) (absurd h.stack)
  fb := absurd h.fb
  index := absurd h.index

theorem sameStorage_skipIf (s : State) (c : Bool) : SameStorage s (s.skipIf c) := by
  rw [State.skipIf_eq]
  exact ⟨rfl, rfl, rfl, rfl, rfl⟩

theorem sameStorage_waitStep (x : Reg) (s : State) : SameStorage s (waitStep x s) := by
  cases hk : s.keyEvent with
  | none =>
    rw [waitStep_none hk]
    exact ⟨rfl, rfl, rfl, rfl, rfl⟩
  | some k =>
    rw [waitStep_some hk]
    exact ⟨rfl, rfl, rfl, rfl, rfl⟩

/-- A push writes the stack and its pointer alone. -/
theorem push_frame {s t : State} {w : Word} (e : s.push w = .ok t) :
    ∃ stack sp, t = { s with stack := stack, sp := sp } := by
  unfold State.push at e
  split at e <;> cases e
  exact ⟨_, _, rfl⟩

/-- A pop writes the stack pointer alone. -/
theorem pop_frame {s t : State} {w : Word} (e : s.pop = .ok (w, t)) : ∃ sp, t = { s with sp := sp } := by
  unfold State.pop at e
  split at e <;> cases e
  exact ⟨_, rfl⟩

theorem execCall_storage (nnn : BitVec 12) (s : State) :
    OnCompletion (ChangesOnlyItsStorage (.call nnn) s) (execCall nnn s) := by
  unfold execCall
  split
  · rename_i t e
    obtain ⟨stack, sp, rfl⟩ := push_frame e
    exact .next ⟨absurd rfl, fun _ => .inr ⟨nnn, rfl⟩, absurd rfl, absurd rfl⟩
  · exact .raise _ s _

theorem execRet_storage (s : State) : OnCompletion (ChangesOnlyItsStorage .ret s) (execRet s) := by
  unfold execRet
  split
  · rename_i w t e
    obtain ⟨sp, rfl⟩ := pop_frame e
    exact .next ⟨absurd rfl, fun _ => .inl rfl, absurd rfl, absurd rfl⟩
  · exact .raise _ s _

theorem execLoadRegs_storage (x : Reg) (s : State) :
    OnCompletion (ChangesOnlyItsStorage (.loadRegs x) s) (execLoadRegs x s) := by
  unfold execLoadRegs
  split
  · exact .next (SameStorage.changesOnly ⟨s.setRegs_mem _, s.setRegs_sp _, s.setRegs_stack _, s.setRegs_fb _,
      s.setRegs_i _⟩)
  · exact .raise _ s _

theorem execDrw_storage (x y : Reg) (n : BitVec 4) (s : State) :
    OnCompletion (ChangesOnlyItsStorage (.drw x y n) s) (execDrw x y n s) := by
  unfold execDrw
  split
  · exact .next ⟨absurd rfl, Or.rec (absurd rfl) (absurd rfl), fun _ => .inr ⟨x, y, n, rfl⟩, absurd rfl⟩
  · exact .raise _ s _

/-- A run of stores changes memory alone, so an instruction that may store may end in it. -/
theorem writeAll_storage {i : Instr} (hi : ∃ x, i = .ldB x ∨ i = .storeRegs x) (s : State) (a : Nat) (bs : List Byte) :
    ChangesOnlyItsStorage i s (s.setMem (Memory.writeAll s.mem a bs)) :=
  ⟨fun _ => hi, Or.rec (absurd rfl) (absurd rfl), absurd rfl, absurd rfl⟩

/-- An instruction that sets the index register changes nothing else of the storage. -/
theorem setI_storage {i : Instr} (hi : (∃ nnn, i = .ldI nnn) ∨ ∃ x, i = .addI x ∨ i = .ldF x) (s : State)
    (w : Word) : ChangesOnlyItsStorage i s (s.setI w) :=
  ⟨absurd rfl, Or.rec (absurd rfl) (absurd rfl), absurd rfl, fun _ => hi⟩

/-- Every instruction that completes changes only the storage it may change. -/
theorem exec_storage (i : Instr) (s : State) : OnCompletion (ChangesOnlyItsStorage i s) (exec i s) := by
  cases i with
  | jp | jpV0 | ldImm | addImm | ldReg | or | and | xor | addReg | sub | shr | subn | shl | rnd | ldVxDt | ldVxKey
  | ldDtVx | ldStVx => exact .next (SameStorage.changesOnly ⟨rfl, rfl, rfl, rfl, rfl⟩)
  | seImm | sneImm | seReg | sneReg | skp | sknp => exact .next (sameStorage_skipIf s _).changesOnly
  | cls => exact .next ⟨absurd rfl, Or.rec (absurd rfl) (absurd rfl), fun _ => .inl rfl, absurd rfl⟩
  | drw x y n => exact execDrw_storage x y n s
  | call nnn => exact execCall_storage nnn s
  | ret => exact execRet_storage s
  | ldI nnn => exact .next (setI_storage (.inl ⟨nnn, rfl⟩) s _)
  | addI x => exact .next (setI_storage (.inr ⟨x, .inl rfl⟩) s _)
  | ldF x => exact .next (setI_storage (.inr ⟨x, .inr rfl⟩) s _)
  | ldB x => exact .store _ (decimalDigits_ne_nil _) (writeAll_storage ⟨x, .inl rfl⟩ s _ _)
  | storeRegs x => exact .store _ (rangeOperand_ne_nil s x) (writeAll_storage ⟨x, .inr rfl⟩ s _ _)
  | loadRegs x => exact execLoadRegs_storage x s

/-! ### The step -/

/-- A byte differs only where memory does. -/
theorem mem_ne_of_byteAt_ne {s t : State} (h : ∃ a, t.byteAt a ≠ s.byteAt a) : t.mem ≠ s.mem := by
  intro e
  obtain ⟨a, ha⟩ := h
  exact ha (by rw [State.byteAt, State.byteAt, e])

/-- A cell differs only where the display does. -/
theorem fb_ne_of_cell_ne {s t : State} (h : ∃ c, t.cell c ≠ s.cell c) : t.fb ≠ s.fb := by
  intro e
  obtain ⟨c, hc⟩ := h
  exact hc (by rw [State.cell, State.cell, e])

/-- A step without a fault keeps the storage, or it runs an instruction that changes only the storage it may change. -/
theorem step_storage {s t : State} (h : step s = .next t) (ht : t.fault = none) :
    SameStorage s t ∨ s.awaitingKey = none ∧ ∃ i, fetchInstr s = .ok i ∧ ChangesOnlyItsStorage i s t := by
  obtain ⟨-, ⟨x, -, rfl⟩ | ⟨-, f, -, rfl⟩ | ⟨ha, i, hi, e⟩⟩ := step_cases h
  · exact .inl (sameStorage_waitStep x s)
  · exact absurd ht (Option.some_ne_none f)
  · obtain ⟨mem, stack, fb, index⟩ := exec_storage i (advance s) t e ht
    exact .inr ⟨ha, i, hi, mem, stack, fb, index⟩

/-- Settles O14: a wait step keeps the storage, and an instruction that completes changes only the storage it may change. -/
theorem stepChangesStorageOnlyByItsInstructions : Obligations.StepChangesStorageOnlyByItsInstructions := by
  intro s t h ht
  rcases step_storage h ht with same | ⟨ha, i, hi, changes⟩
  · exact ⟨fun hb => absurd same.mem (mem_ne_of_byteAt_ne hb), Or.rec (absurd same.sp) (absurd same.stack),
      fun hc => absurd same.fb (fb_ne_of_cell_ne hc), absurd same.index⟩
  · simp only [hi, Except.ok.injEq]
    exact ⟨fun hb => ⟨ha, changes.mem (mem_ne_of_byteAt_ne hb)⟩, fun hs => ⟨ha, changes.stack hs⟩,
      fun hc => ⟨ha, changes.fb (fb_ne_of_cell_ne hc)⟩, fun hw => ⟨ha, changes.index hw⟩⟩

end Sys2Proof
end

section
/-! PROOFS. The family of 30_encoding.md: decode and encode are inverse to each other (rules R60, R61, R65, R66), the decoder
and the opcode map agree on every word (rule R66), the illegal words by family (rule R67), and the step on one (rule R83).

The order: the round trip from an instruction; the round trip from a word; the rows of the map; the refusals of the decoder;
the step. -/

namespace Sys2Proof

open Machine

/-! ### From an instruction to its word and back -/

/-- The decoder finds the family in `T`, the instruction in its secondary field, and each operand in its own field. -/
@[simp] theorem decode_encode (i : Instr) : decode (encode i) = .ok i := by
  cases i with
  | cls | ret => rfl
  | jp | call | ldI | jpV0 => simp [encode, decode]
  | seImm | sneImm | ldImm | addImm | rnd => simp [encode, decode]
  | seReg | sneReg | drw => simp [encode, decode]
  | ldReg | or | and | xor | addReg | sub | shr | subn | shl => simp [encode, decode, decode8]
  | skp | sknp => simp [encode, decode, decodeE]
  | ldVxDt | ldVxKey | ldDtVx | ldStVx | addI | ldF | ldB | storeRegs | loadRegs => simp [encode, decode, decodeF]

/-- At the head of a list of bytes stand the two bytes of an instruction. -/
theorem decodeBytes_encodeBytes (i : Instr) (rest : List Byte) :
    decodeBytes (encodeBytes i ++ rest) = .ok (i, rest) := by
  simp [encodeBytes, decodeBytes]

/-- Settles O2, by the round trip of the word and of its two bytes. -/
theorem decodeInvertsEncode : Obligations.DecodeInvertsEncode :=
  fun i rest => ⟨decode_encode i, decodeBytes_encodeBytes i rest⟩

/-- Settles O1, by running the decoder on the fifteen words. -/
theorem sampleWordsDecode : Obligations.SampleWordsDecode := by
  unfold Obligations.SampleWordsDecode
  decide

/-! ### A word with its family and its secondary field known -/

theorem wordNNN_of_fieldT {op : Word} {t : BitVec 4} (ht : fieldT op = t) : wordNNN t (fieldNNN op) = op :=
  ht ▸ wordNNN_fields op

theorem wordXNN_of_fieldT {op : Word} {t : BitVec 4} (ht : fieldT op = t) : wordXNN t (fieldX op) (fieldNN op) = op :=
  ht ▸ wordXNN_fields op

theorem wordXYN_of_fieldT {op : Word} {t : BitVec 4} (ht : fieldT op = t) :
    wordXYN t (fieldX op) (fieldY op) (fieldN op) = op :=
  ht ▸ wordXYN_fields op

theorem wordXNN_of_fieldNN {op : Word} {t : BitVec 4} {nn : Byte} (ht : fieldT op = t) (hn : fieldNN op = nn) :
    wordXNN t (fieldX op) nn = op :=
  hn ▸ wordXNN_of_fieldT ht

theorem wordXYN_of_fieldN {op : Word} {t n : BitVec 4} (ht : fieldT op = t) (hn : fieldN op = n) :
    wordXYN t (fieldX op) (fieldY op) n = op :=
  hn ▸ wordXYN_of_fieldT ht

/-! ### From a word to its instruction and back -/

theorem encode_of_decode0 {op : Word} {i : Instr} (h : decode0 op = .ok i) : encode i = op := by
  unfold decode0 at h
  split_ifs at h with hcls hret <;> cases h
  · exact hcls.symm
  · exact hret.symm

theorem encode_of_decode8 {op : Word} {i : Instr} (ht : fieldT op = 8) (h : decode8 op = .ok i) : encode i = op := by
  unfold decode8 at h
  split at h <;> cases h <;> exact wordXYN_of_fieldN ht (BitVec.eq_of_toNat_eq ‹_›)

theorem encode_of_decodeE {op : Word} {i : Instr} (ht : fieldT op = 0xE) (h : decodeE op = .ok i) : encode i = op := by
  unfold decodeE at h
  split_ifs at h <;> cases h <;> exact wordXNN_of_fieldNN ht ‹_›

theorem encode_of_decodeF {op : Word} {i : Instr} (ht : fieldT op = 0xF) (h : decodeF op = .ok i) : encode i = op := by
  unfold decodeF at h
  split_ifs at h <;> cases h <;> exact wordXNN_of_fieldNN ht ‹_›

/-- The last family of the decoder's branch on `T`. -/
theorem fieldT_eq_F {op : Word} (h : ¬(fieldT op).toNat < 15) : fieldT op = 0xF := by
  have hlt := (fieldT op).isLt
  exact BitVec.eq_of_toNat_eq (show (fieldT op).toNat = 15 by omega)

/-- What a word decodes to has that word: family by family, the operands are the fields the family's selectors leave. -/
theorem encode_of_decode {op : Word} {i : Instr} (h : decode op = .ok i) : encode i = op := by
  unfold decode at h
  split at h
  case h_1 => exact encode_of_decode0 h
  case h_9 ht => exact encode_of_decode8 (BitVec.eq_of_toNat_eq ht) h
  case h_15 ht => exact encode_of_decodeE (BitVec.eq_of_toNat_eq ht) h
  case h_16 => exact encode_of_decodeF (fieldT_eq_F (by grind)) h
  case h_2 ht | h_3 ht | h_11 ht | h_12 ht => cases h; exact wordNNN_of_fieldT (BitVec.eq_of_toNat_eq ht)
  case h_4 ht | h_5 ht | h_7 ht | h_8 ht | h_13 ht => cases h; exact wordXNN_of_fieldT (BitVec.eq_of_toNat_eq ht)
  case h_14 ht => cases h; exact wordXYN_of_fieldT (BitVec.eq_of_toNat_eq ht)
  case h_6 ht | h_10 ht =>
    split_ifs at h with hn
    cases h
    exact wordXYN_of_fieldN (BitVec.eq_of_toNat_eq ht) hn

/-- Settles O3, by the round trip of a word. -/
theorem encodeInvertsDecode : Obligations.EncodeInvertsDecode :=
  fun _ _ => encode_of_decode

/-! ### The rows of the map -/

/-- Every instruction's word is accepted by the row of its pattern. -/
theorem row_accepts_encode (i : Instr) : Laws.Encoding.Statement i :=
  match i with
  | .cls => Laws.Encoding.cls
  | .ret => Laws.Encoding.ret
  | .jp nnn => Laws.Encoding.jp nnn
  | .call nnn => Laws.Encoding.call nnn
  | .seImm x nn => Laws.Encoding.seImm x nn
  | .sneImm x nn => Laws.Encoding.sneImm x nn
  | .seReg x y => Laws.Encoding.seReg x y
  | .ldImm x nn => Laws.Encoding.ldImm x nn
  | .addImm x nn => Laws.Encoding.addImm x nn
  | .ldReg x y => Laws.Encoding.ldReg x y
  | .or x y => Laws.Encoding.or x y
  | .and x y => Laws.Encoding.and x y
  | .xor x y => Laws.Encoding.xor x y
  | .addReg x y => Laws.Encoding.addReg x y
  | .sub x y => Laws.Encoding.sub x y
  | .shr x y => Laws.Encoding.shr x y
  | .subn x y => Laws.Encoding.subn x y
  | .shl x y => Laws.Encoding.shl x y
  | .sneReg x y => Laws.Encoding.sneReg x y
  | .ldI nnn => Laws.Encoding.ldI nnn
  | .jpV0 nnn => Laws.Encoding.jpV0 nnn
  | .rnd x nn => Laws.Encoding.rnd x nn
  | .drw x y n => Laws.Encoding.drw x y n
  | .skp x => Laws.Encoding.skp x
  | .sknp x => Laws.Encoding.sknp x
  | .ldVxDt x => Laws.Encoding.ldVxDt x
  | .ldVxKey x => Laws.Encoding.ldVxKey x
  | .ldDtVx x => Laws.Encoding.ldDtVx x
  | .ldStVx x => Laws.Encoding.ldStVx x
  | .addI x => Laws.Encoding.addI x
  | .ldF x => Laws.Encoding.ldF x
  | .ldB x => Laws.Encoding.ldB x
  | .storeRegs x => Laws.Encoding.storeRegs x
  | .loadRegs x => Laws.Encoding.loadRegs x

/-- Two different rows disagree in a bit that both masks select. -/
theorem opcodeRows_disjoint :
    ∀ r ∈ opcodeRows, ∀ r' ∈ opcodeRows, r.value &&& r'.mask = r'.value &&& r.mask → r = r' := by
  decide

/-- A pattern names one row. -/
theorem opcodeRows_pattern_injective : ∀ r ∈ opcodeRows, ∀ r' ∈ opcodeRows, r.pattern = r'.pattern → r = r' := by
  decide

/-- At most one row accepts a word: two that do agree in the bits that both masks select. -/
theorem row_unique {op : Word} {r r' : OpcodeRow} (hr : r ∈ opcodeRows) (hr' : r' ∈ opcodeRows)
    (h : r.accepts op = true) (h' : r'.accepts op = true) : r = r' := by
  rw [OpcodeRow.accepts, beq_iff_eq] at h h'
  refine opcodeRows_disjoint r hr r' hr' ?_
  rw [← h, ← h', BitVec.and_assoc, BitVec.and_assoc, BitVec.and_comm r.mask]

/-- The rows that accept an instruction's word are the row of its pattern alone. -/
theorem accepts_encode_iff {r : OpcodeRow} (hr : r ∈ opcodeRows) (i : Instr) :
    r.accepts (encode i) = true ↔ r.pattern = i.pattern := by
  obtain ⟨own, hown, hpat, hacc⟩ := row_accepts_encode i
  constructor
  · intro h
    rw [row_unique hr hown h hacc, hpat]
  · intro h
    rwa [opcodeRows_pattern_injective r hr own hown (h.trans hpat.symm)]

theorem legalWord_encode (i : Instr) : legalWord (encode i) = true := by
  obtain ⟨r, hr, -, h⟩ := row_accepts_encode i
  exact List.any_eq_true.mpr ⟨r, hr, h⟩

/-! A word's format read off its row's mask and value. -/

/-- The mask of the instructions without an operand leaves the word. -/
theorem word_of_fullMask {op v : Word} (h : op &&& 0xFFFF = v) : v = op := h.symm.trans BitVec.and_allOnes

/-- The mask of the formats `NNN`, `XNN` and `XYN` leaves the family. -/
theorem fieldT_of_mask {op : Word} {t : BitVec 4} (h : op &&& 0xF000 = wordNNN t 0) : fieldT op = t := by
  have masked := Laws.Encoding.wordNNN_mask (fieldT op) (fieldNNN op)
  rw [wordNNN_fields, h] at masked
  simpa using (congrArg fieldT masked).symm

/-- The mask of the format `XSUB` leaves the family and the low byte. -/
theorem wordXNN_of_mask {op : Word} {t : BitVec 4} {nn : Byte} (h : op &&& 0xF0FF = wordXNN t 0 nn) :
    wordXNN t (fieldX op) nn = op := by
  have masked := Laws.Encoding.wordXNN_maskSub (fieldT op) (fieldX op) (fieldNN op)
  rw [wordXNN_fields, h] at masked
  exact wordXNN_of_fieldNN (by simpa using (congrArg fieldT masked).symm) (by simpa using (congrArg fieldNN masked).symm)

/-- The mask of the format `XYN` with a fixed low nibble leaves the family and that nibble. -/
theorem wordXYN_of_mask {op : Word} {t n : BitVec 4} (h : op &&& 0xF00F = wordXYN t 0 0 n) :
    wordXYN t (fieldX op) (fieldY op) n = op := by
  have masked := Laws.Encoding.wordXYN_maskSub (fieldT op) (fieldX op) (fieldY op) (fieldN op)
  rw [wordXYN_fields, h] at masked
  exact wordXYN_of_fieldN (by simpa using (congrArg fieldT masked).symm) (by simpa using (congrArg fieldN masked).symm)

/-- A word that a row accepts is the word of the row's instruction with the word's fields as operands. -/
theorem exists_encode_of_accepts (op : Word) :
    ∀ r ∈ opcodeRows, r.accepts op = true → ∃ i, encode i = op := by
  simp only [opcodeRows, opcodeRowsLow, opcodeRowsAlu, opcodeRowsHigh, List.cons_append, List.nil_append,
    List.forall_mem_cons, List.not_mem_nil, OpcodeRow.accepts, beq_iff_eq]
  exact ⟨
    fun h => ⟨.cls, word_of_fullMask h⟩,
    fun h => ⟨.ret, word_of_fullMask h⟩,
    fun h => ⟨.jp _, wordNNN_of_fieldT (fieldT_of_mask h)⟩,
    fun h => ⟨.call _, wordNNN_of_fieldT (fieldT_of_mask h)⟩,
    fun h => ⟨.seImm _ _, wordXNN_of_fieldT (fieldT_of_mask h)⟩,
    fun h => ⟨.sneImm _ _, wordXNN_of_fieldT (fieldT_of_mask h)⟩,
    fun h => ⟨.seReg _ _, wordXYN_of_mask h⟩,
    fun h => ⟨.ldImm _ _, wordXNN_of_fieldT (fieldT_of_mask h)⟩,
    fun h => ⟨.addImm _ _, wordXNN_of_fieldT (fieldT_of_mask h)⟩,
    fun h => ⟨.ldReg _ _, wordXYN_of_mask h⟩,
    fun h => ⟨.or _ _, wordXYN_of_mask h⟩,
    fun h => ⟨.and _ _, wordXYN_of_mask h⟩,
    fun h => ⟨.xor _ _, wordXYN_of_mask h⟩,
    fun h => ⟨.addReg _ _, wordXYN_of_mask h⟩,
    fun h => ⟨.sub _ _, wordXYN_of_mask h⟩,
    fun h => ⟨.shr _ _, wordXYN_of_mask h⟩,
    fun h => ⟨.subn _ _, wordXYN_of_mask h⟩,
    fun h => ⟨.shl _ _, wordXYN_of_mask h⟩,
    fun h => ⟨.sneReg _ _, wordXYN_of_mask h⟩,
    fun h => ⟨.ldI _, wordNNN_of_fieldT (fieldT_of_mask h)⟩,
    fun h => ⟨.jpV0 _, wordNNN_of_fieldT (fieldT_of_mask h)⟩,
    fun h => ⟨.rnd _ _, wordXNN_of_fieldT (fieldT_of_mask h)⟩,
    fun h => ⟨.drw _ _ _, wordXYN_of_fieldT (fieldT_of_mask h)⟩,
    fun h => ⟨.skp _, wordXNN_of_mask h⟩,
    fun h => ⟨.sknp _, wordXNN_of_mask h⟩,
    fun h => ⟨.ldVxDt _, wordXNN_of_mask h⟩,
    fun h => ⟨.ldVxKey _, wordXNN_of_mask h⟩,
    fun h => ⟨.ldDtVx _, wordXNN_of_mask h⟩,
    fun h => ⟨.ldStVx _, wordXNN_of_mask h⟩,
    fun h => ⟨.addI _, wordXNN_of_mask h⟩,
    fun h => ⟨.ldF _, wordXNN_of_mask h⟩,
    fun h => ⟨.ldB _, wordXNN_of_mask h⟩,
    fun h => ⟨.storeRegs _, wordXNN_of_mask h⟩,
    fun h => ⟨.loadRegs _, wordXNN_of_mask h⟩,
    fun _ h => h.elim⟩

/-- The legal words are the words of the instructions. -/
theorem legalWord_iff_exists_encode (op : Word) : legalWord op = true ↔ ∃ i, encode i = op := by
  constructor
  · intro h
    obtain ⟨r, hr, hacc⟩ := List.any_eq_true.mp h
    exact exists_encode_of_accepts op r hr hacc
  · rintro ⟨i, rfl⟩
    exact legalWord_encode i

/-- The decoder accepts exactly the legal words. -/
theorem legalWord_iff_exists_decode (op : Word) : legalWord op = true ↔ ∃ i, decode op = .ok i := by
  rw [legalWord_iff_exists_encode]
  exact exists_congr fun i => ⟨fun h => h ▸ decode_encode i, encode_of_decode⟩

/-! ### The refusals of the decoder -/

theorem toNat_fieldT (op : Word) : (fieldT op).toNat = op.toNat / 4096 := by
  have hlt := op.isLt
  rw [fieldT, BitVec.extractLsb'_toNat, Nat.shiftRight_eq_div_pow]
  omega

theorem toNat_fieldN (op : Word) : (fieldN op).toNat = op.toNat % 16 := by
  simp [fieldN]

theorem toNat_fieldNN (op : Word) : (fieldNN op).toNat = op.toNat % 256 := by
  simp [fieldNN]

theorem fieldN_eq_zero_iff (op : Word) : fieldN op = 0 ↔ op.toNat % 16 = 0 := by
  rw [← BitVec.toNat_inj, toNat_fieldN]; rfl

/-! What each family's decoder refuses is that family's class of rule R67. -/

theorem decode0_eq_error_iff (op : Word) (e : DecodeError) :
    decode0 op = .error e ↔ e = .unknownOpcode op ∧ op ≠ 0x00E0 ∧ op ≠ 0x00EE := by
  unfold decode0
  grind

theorem decode8_eq_error_iff (op : Word) (e : DecodeError) :
    decode8 op = .error e ↔ e = .unknownOpcode op ∧ op.toNat % 16 ∈ [8, 9, 0xA, 0xB, 0xC, 0xD, 0xF] := by
  rw [← toNat_fieldN]
  have hlt := (fieldN op).isLt
  unfold decode8
  split <;> grind

theorem decodeE_eq_error_iff (op : Word) (e : DecodeError) :
    decodeE op = .error e ↔ e = .unknownOpcode op ∧ op.toNat % 256 ∉ [0x9E, 0xA1] := by
  unfold decodeE
  simp only [← toNat_fieldNN, ← BitVec.toNat_inj, List.mem_cons, List.not_mem_nil, or_false]
  split_ifs <;> grind

theorem decodeF_eq_error_iff (op : Word) (e : DecodeError) :
    decodeF op = .error e ↔
      e = .unknownOpcode op ∧ op.toNat % 256 ∉ [0x07, 0x0A, 0x15, 0x18, 0x1E, 0x29, 0x33, 0x55, 0x65] := by
  unfold decodeF
  simp only [← toNat_fieldNN, ← BitVec.toNat_inj, List.mem_cons, List.not_mem_nil, or_false]
  split_ifs <;> grind

/-- What the decoder refuses, it refuses as unknown. -/
theorem decode_error {op : Word} {e : DecodeError} (h : decode op = .error e) : e = .unknownOpcode op := by
  unfold decode at h
  split at h
  case h_1 => exact ((decode0_eq_error_iff op e).mp h).1
  case h_9 => exact ((decode8_eq_error_iff op e).mp h).1
  case h_15 => exact ((decodeE_eq_error_iff op e).mp h).1
  case h_16 => exact ((decodeF_eq_error_iff op e).mp h).1
  case h_6 | h_10 => split_ifs at h; cases h; rfl
  all_goals cases h

/-- The decoder refuses exactly the words that no row accepts. -/
theorem legalWord_eq_false_iff (op : Word) : legalWord op = false ↔ decode op = .error (.unknownOpcode op) := by
  rw [← Bool.not_eq_true, legalWord_iff_exists_decode]
  constructor
  · intro h
    match hd : decode op with
    | .ok i => exact absurd ⟨i, hd⟩ h
    | .error e => rw [decode_error hd]
  · rintro h ⟨i, hi⟩
    cases h.symm.trans hi

/-- Settles O4: a word that decodes is the word of its instruction, which the row of its pattern alone accepts; the decoder
refuses the words that no row accepts, and no others. -/
theorem decodeFollowsOpcodeMap : Obligations.DecodeFollowsOpcodeMap := by
  intro op
  refine ⟨fun i hi r hr => ?_, (legalWord_iff_exists_decode op).mp, (legalWord_eq_false_iff op).mp⟩
  rw [← encode_of_decode hi]
  exact accepts_encode_iff hr i

/-- Settles O5: the illegal words are those the decoder refuses, and each family's decoder refuses one class of rule R67. -/
theorem illegalWordsByFamily : Obligations.IllegalWordsByFamily := by
  intro op
  rw [legalWord_eq_false_iff, ← toNat_fieldT]
  unfold decode
  split
  case h_1 ht => simp [ht, decode0_eq_error_iff]
  case h_9 ht => simp [ht, decode8_eq_error_iff]
  case h_15 ht => simp [ht, decodeE_eq_error_iff]
  case h_16 =>
    have ht : fieldT op = 0xF := fieldT_eq_F (by grind)
    simp [ht, decodeF_eq_error_iff]
  case h_6 ht | h_10 ht => simp [ht, ← fieldN_eq_zero_iff]
  case h_2 ht | h_3 ht | h_4 ht | h_5 ht | h_7 ht | h_8 ht | h_11 ht | h_12 ht | h_13 ht | h_14 ht => simp [ht]

/-! ### The step on an illegal word -/

/-- Fetch and decode refuse an illegal word at `pc` (rule R83). -/
theorem fetchInstr_illegal {s : State} (hpc : s.pc.toNat ≤ 0xFFE)
    (h : legalWord (s.byteAt s.pc.toNat ++ s.byteAt (s.pc.toNat + 1)) = false) :
    fetchInstr s = .error .unknownOpcode := by
  simp only [fetchInstr, fetch_inside s hpc, (legalWord_eq_false_iff _).mp h]

/-- Settles O8: the decode of an illegal word raises, so the step takes the fault entry. -/
theorem illegalWordFaults : Obligations.IllegalWordFaults := by
  rintro s ⟨hf, ha⟩ hpc h
  have hstep : step s = .next (s.raise .unknownOpcode) := step_raises hf ha (fetchInstr_illegal hpc h)
  refine ⟨_, hstep, s.raise_fault _, ?_⟩
  rw [perform_step_next hstep, stepResponse_raise]

end Sys2Proof
end

section
/-! PROOFS. The family of 40_step_cycle.md: the running step (rules R81 to R84), the wait step (rule R86), the totality of the
step (rules R80, R87), what it reports (rule R88), and which steps move the timers (rule R90).

The order: the running step; the wait step; every step answers; what the host gets from one; the timers and key levels. -/

namespace Sys2Proof

open Machine

/-! ### The running step -/

/-- Inside memory the fetched instruction is the one the word at `pc` decodes to. -/
theorem fetchInstr_legal {s : State} {i : Instr} (hpc : s.pc.toNat ≤ 0xFFE)
    (h : decode (s.byteAt s.pc.toNat ++ s.byteAt (s.pc.toNat + 1)) = .ok i) : fetchInstr s = .ok i := by
  simp only [fetchInstr, fetch_inside s hpc, h]

/-- Settles O6: the fetch finds the instruction, and the running step executes what it fetched. -/
theorem stepRunsDecodedInstruction : Obligations.StepRunsDecodedInstruction := by
  rintro s i ⟨hf, ha⟩ hpc h
  exact step_running hf ha (fetchInstr_legal hpc h)

/-! ### The wait step -/

/-- The number of a key fits a register. -/
theorem toNat_ofNat_key (k : Key) : (BitVec.ofNat 8 k.val).toNat = k.val :=
  (BitVec.toNat_ofNat k.val 8).trans (Nat.mod_eq_of_lt (by omega))

/-- Settles O10: the latch decides whether the wait step is idle or writes the key and ends the wait. -/
theorem waitStepCompletesOnPress : Obligations.WaitStepCompletesOnPress := by
  intro s x hf ha
  rw [step_waiting hf ha]
  refine ⟨fun hk => by rw [waitStep_none hk], fun k hk => ⟨_, rfl, ?_⟩⟩
  rw [waitStep_some hk]
  refine ⟨?_, rfl, rfl, rfl, fun r hr => ?_, fun _ => rfl, ⟨rfl, rfl⟩, fun _ _ => rfl, ⟨rfl, rfl⟩, fun _ => rfl, rfl, rfl⟩
  · rw [State.reg_setPc, State.reg_setReg_same, toNat_ofNat_key]
  · rw [State.reg_setPc, State.reg_setReg_other _ _ (List.ne_of_not_mem_cons hr), State.reg_endWait]

/-! ### Every step answers -/

/-- A meaning that ends in stores answers the state they leave or the fault entry. -/
theorem settle_answers (s : State) (r : Except Fault State) : ∃ t, settle s r = .next t := by
  cases r with
  | ok t => exact ⟨t, rfl⟩
  | error f => exact ⟨s.raise f, rfl⟩

/-- No instruction stops the model: it completes or takes the fault entry, and both are next states. -/
theorem exec_answers (i : Instr) (s : State) : ∃ t, exec i s = .next t := by
  cases i with
  | cls | jp | seImm | sneImm | seReg | sneReg | ldImm | addImm | ldReg | or | and | xor | addReg | sub | shr | subn
  | shl | ldI | jpV0 | rnd | skp | sknp | ldVxDt | ldVxKey | ldDtVx | ldStVx | addI | ldF => exact ⟨_, rfl⟩
  | ldB | storeRegs => exact settle_answers s _
  | call | ret | drw | loadRegs =>
    simp only [exec, execCall, execRet, execDrw, execLoadRegs]
    split <;> exact ⟨_, rfl⟩

/-- In the faulted condition the step answers the recorded cause (rule R87). -/
theorem step_faulted {s : State} {c : Fault} (h : s.fault = some c) : step s = .fault c := by
  simp only [step, stepTransaction, h]

theorem perform_step_faulted {s : State} {c : Fault} (h : s.fault = some c) :
    perform .step s = (s, .stepError c) := by
  simp only [perform, step_faulted h]

/-- A step without a fault answers a next state, in the wait and in the running condition. -/
theorem step_answers {s : State} (hf : s.fault = none) : ∃ t, step s = .next t := by
  cases ha : s.awaitingKey with
  | some x => exact ⟨_, step_waiting hf ha⟩
  | none =>
    cases hi : fetchInstr s with
    | ok i =>
      rw [step_running hf ha hi]
      exact exec_answers i _
    | error f => exact ⟨_, step_raises hf ha hi⟩

/-- Settles O9, by the fault status of the state. -/
theorem stepIsTotal : Obligations.StepIsTotal :=
  fun _ => ⟨step_answers, fun _ h => ⟨step_faulted h, perform_step_faulted h⟩⟩

/-! ### What a step reports -/

theorem toneLevel_iff (s : State) : toneLevel s = true ↔ 0 < s.st.toNat := decide_eq_true_iff

/-- The instructions that report a changed display. -/
theorem marksDisplay_iff (i : Instr) : marksDisplay i = true ↔ i = .cls ∨ ∃ x y n, i = .drw x y n := by
  cases i <;> simp [marksDisplay]

/-- The display flag stands for a step that runs `00E0` or `DXYN`; a wait step leaves it 0. -/
theorem fbChanged_iff (s : State) : fbChanged s = true ↔
    s.awaitingKey = none ∧ (fetchInstr s = .ok .cls ∨ ∃ x y n, fetchInstr s = .ok (.drw x y n)) := by
  unfold fbChanged
  cases s.awaitingKey with
  | some x => simp
  | none => cases fetchInstr s <;> simp [marksDisplay_iff]

/-- What the host gets from a step that completes. -/
theorem stepResponse_completed (s : State) {t : State} (ht : t.fault = none) :
    stepResponse s t = .stepped (fbChanged s) (toneLevel t) := by
  simp only [stepResponse, ht]

/-- Settles O11: the answer is made of the display flag of the step and the tone level it left. -/
theorem stepReportsDisplayAndTone : Obligations.StepReportsDisplayAndTone := by
  intro s t h ht
  refine ⟨fbChanged s, toneLevel t, ?_, toneLevel_iff t, fbChanged_iff s⟩
  rw [perform_step_next h, stepResponse_completed s ht]

/-- The host gets `Ok` only from a step that completed, with the flags of that step. -/
theorem step_of_stepped {s t : State} {changed tone : Bool} (h : perform .step s = (t, .stepped changed tone)) :
    step s = .next t ∧ t.fault = none ∧ fbChanged s = changed := by
  cases hf : s.fault with
  | some c => cases (perform_step_faulted hf).symm.trans h
  | none =>
    obtain ⟨u, hu⟩ := step_answers hf
    obtain ⟨rfl, hr⟩ := Prod.mk.inj ((perform_step_next hu).symm.trans h)
    cases ht : u.fault with
    | some c => simp [stepResponse, ht] at hr
    | none =>
      rw [stepResponse_completed s ht] at hr
      exact ⟨hu, rfl, (Response.stepped.inj hr).1⟩

/-- Settles O12: a cell changes only in a step of `00E0` or `DXYN`, which reports it. -/
theorem unreportedStepKeepsDisplay : Obligations.UnreportedStepKeepsDisplay := by
  intro s t tone h c _
  obtain ⟨hstep, ht, hflag⟩ := step_of_stepped h
  obtain ⟨-, -, display, -⟩ := stepChangesStorageOnlyByItsInstructions s t hstep ht
  by_contra hc
  have reported : fbChanged s = true := (fbChanged_iff s).mpr (display ⟨c, hc⟩)
  exact Bool.false_ne_true (hflag.symm.trans reported)

/-! ### The timers and the key levels -/

/-- From `s` to `t` the instruction moved only the timer it sets, and no key level (rule R90). -/
structure MovesOnlyItsTimer (i : Instr) (s t : State) : Prop where
  keys : t.k = s.k
  dt : t.dt ≠ s.dt → ∃ x, i = .ldDtVx x
  st : t.st ≠ s.st → ∃ x, i = .ldStVx x

/-- Timers and key levels as they were. -/
structure SameTimersAndKeys (s t : State) : Prop where
  keys : t.k = s.k
  dt : t.dt = s.dt
  st : t.st = s.st

theorem SameTimersAndKeys.movesOnly {i : Instr} {s t : State} (h : SameTimersAndKeys s t) : MovesOnlyItsTimer i s t where
  keys := h.keys
  dt := absurd h.dt
  st := absurd h.st

theorem sameTimersAndKeys_skipIf (s : State) (c : Bool) : SameTimersAndKeys s (s.skipIf c) := by
  rw [State.skipIf_eq]
  exact ⟨rfl, rfl, rfl⟩

theorem sameTimersAndKeys_waitStep (x : Reg) (s : State) : SameTimersAndKeys s (waitStep x s) := by
  cases hk : s.keyEvent with
  | none =>
    rw [waitStep_none hk]
    exact ⟨rfl, rfl, rfl⟩
  | some k =>
    rw [waitStep_some hk]
    exact ⟨rfl, rfl, rfl⟩

theorem execCall_timers (nnn : BitVec 12) (s : State) :
    OnCompletion (MovesOnlyItsTimer (.call nnn) s) (execCall nnn s) := by
  unfold execCall
  split
  · rename_i t e
    obtain ⟨stack, sp, rfl⟩ := push_frame e
    exact .next (SameTimersAndKeys.movesOnly ⟨rfl, rfl, rfl⟩)
  · exact .raise _ s _

theorem execRet_timers (s : State) : OnCompletion (MovesOnlyItsTimer .ret s) (execRet s) := by
  unfold execRet
  split
  · rename_i w t e
    obtain ⟨sp, rfl⟩ := pop_frame e
    exact .next (SameTimersAndKeys.movesOnly ⟨rfl, rfl, rfl⟩)
  · exact .raise _ s _

theorem execLoadRegs_timers (x : Reg) (s : State) :
    OnCompletion (MovesOnlyItsTimer (.loadRegs x) s) (execLoadRegs x s) := by
  unfold execLoadRegs
  split
  · exact .next (SameTimersAndKeys.movesOnly ⟨rfl, rfl, rfl⟩)
  · exact .raise _ s _

theorem execDrw_timers (x y : Reg) (n : BitVec 4) (s : State) :
    OnCompletion (MovesOnlyItsTimer (.drw x y n) s) (execDrw x y n s) := by
  unfold execDrw
  split
  · exact .next (SameTimersAndKeys.movesOnly ⟨rfl, rfl, rfl⟩)
  · exact .raise _ s _

/-- Every instruction that completes moves only the timer it sets. -/
theorem exec_timers (i : Instr) (s : State) : OnCompletion (MovesOnlyItsTimer i s) (exec i s) := by
  cases i with
  | ldDtVx x => exact .next ⟨rfl, fun _ => ⟨x, rfl⟩, absurd rfl⟩
  | ldStVx x => exact .next ⟨rfl, absurd rfl, fun _ => ⟨x, rfl⟩⟩
  | cls | jp | jpV0 | ldImm | addImm | ldReg | or | and | xor | addReg | sub | shr | subn | shl | rnd | ldVxDt | ldVxKey
  | ldI | addI | ldF => exact .next (SameTimersAndKeys.movesOnly ⟨rfl, rfl, rfl⟩)
  | seImm | sneImm | seReg | sneReg | skp | sknp => exact .next (sameTimersAndKeys_skipIf s _).movesOnly
  | ldB x => exact .store _ (decimalDigits_ne_nil _) (SameTimersAndKeys.movesOnly ⟨rfl, rfl, rfl⟩)
  | storeRegs x => exact .store _ (rangeOperand_ne_nil s x) (SameTimersAndKeys.movesOnly ⟨rfl, rfl, rfl⟩)
  | call nnn => exact execCall_timers nnn s
  | ret => exact execRet_timers s
  | loadRegs x => exact execLoadRegs_timers x s
  | drw x y n => exact execDrw_timers x y n s

/-- A step without a fault keeps timers and key levels, or it runs an instruction that moves only the timer it sets. -/
theorem step_timers {s t : State} (h : step s = .next t) (ht : t.fault = none) :
    SameTimersAndKeys s t ∨ s.awaitingKey = none ∧ ∃ i, fetchInstr s = .ok i ∧ MovesOnlyItsTimer i s t := by
  obtain ⟨-, ⟨x, -, rfl⟩ | ⟨-, f, -, rfl⟩ | ⟨ha, i, hi, e⟩⟩ := step_cases h
  · exact .inl (sameTimersAndKeys_waitStep x s)
  · exact absurd ht (Option.some_ne_none f)
  · obtain ⟨keys, dt, st⟩ := exec_timers i (advance s) t e ht
    exact .inr ⟨ha, i, hi, keys, dt, st⟩

theorem key_eq_of_k_eq {s t : State} (h : t.k = s.k) (k : Key) : t.key k = s.key k := by
  rw [State.key, State.key, h]

/-- Settles O13: a wait step moves nothing, and an instruction that completes moves only the timer it sets. -/
theorem stepMovesTimersOnlyByTimerInstructions : Obligations.StepMovesTimersOnlyByTimerInstructions := by
  intro s t h ht
  rcases step_timers h ht with same | ⟨ha, i, hi, moves⟩
  · exact ⟨key_eq_of_k_eq same.keys, absurd same.dt, absurd same.st⟩
  · simp only [hi, Except.ok.injEq]
    exact ⟨key_eq_of_k_eq moves.keys, fun hd => ⟨ha, moves.dt hd⟩, fun hs => ⟨ha, moves.st hs⟩⟩

end Sys2Proof
end

section
/-! PROOFS. The family of 41_flow.md: the jumps (rules R100, R103), call and return (rules R101, R102), and the conditional
skips (rules R104 to R107).

The order: what a move of `pc` leaves unchanged; the jumps; the skips; call and return, and the return behind a call. -/

namespace Sys2Proof

open Machine

/-! ### A move of the program counter -/

theorem sameRegs_setPc (s : State) (w : Word) : SameRegsExcept [] s (s.setPc w) := fun _ _ => rfl

theorem onlyRegsAndPc_setPc (s : State) (w : Word) : OnlyRegsAndPc s (s.setPc w) :=
  ⟨fun _ => rfl, ⟨rfl, rfl⟩, fun _ _ => rfl, ⟨rfl, rfl⟩, ⟨fun _ => rfl, rfl, rfl⟩, rfl, rfl⟩

/-- A running core whose `pc` is moved beyond the last fetchable address raises at its next step (rule R44, D3). -/
theorem step_setPc_beyond {s : State} {w : Word} (hr : Running s) (hw : 0xFFE < w.toNat) :
    ∃ u, step (s.setPc w) = .next u ∧ u.fault = some .addressOutOfRange := by
  obtain ⟨u, hstep, hfault, -⟩ := fetchBeyondMemoryFaults (s.setPc w) hr hw
  exact ⟨u, hstep, hfault⟩

/-! ### The jumps -/

theorem exec_jp (nnn : BitVec 12) (s : State) : exec (.jp nnn) s = .next (s.setPc (addressOperand nnn)) := rfl

theorem exec_jpV0 (nnn : BitVec 12) (s : State) : exec (.jpV0 nnn) s = .next (s.setPc (offsetOperand s nnn)) := rfl

/-- `NNN + V[0]` fits 16 bits, so the sum is exact (rule R103). -/
theorem offsetOperand_toNat (s : State) (nnn : BitVec 12) :
    (offsetOperand s nnn).toNat = nnn.toNat + (s.reg 0).toNat := by
  have hn := nnn.isLt
  have hv := (s.reg 0).isLt
  have hw : ((s.reg 0).setWidth 16).toNat = (s.reg 0).toNat := BitVec.toNat_setWidth_of_le (by decide)
  have hsum : (addressOperand nnn).toNat + ((s.reg 0).setWidth 16).toNat < 2 ^ 16 := by
    rw [addressOperand_toNat, hw]
    omega
  rw [offsetOperand, BitVec.toNat_add_of_lt hsum, addressOperand_toNat, hw]

/-- Settles O23: the target is the zero-extended `NNN`, and `0xFFF` lies beyond the last fetchable address. -/
theorem jumpSetsPc : Obligations.JumpSetsPc := by
  intro nnn s
  refine ⟨_, exec_jp nnn s, addressOperand_toNat nnn, sameRegs_setPc s _, onlyRegsAndPc_setPc s _, ?_⟩
  rintro rfl hr
  exact step_setPc_beyond hr (by decide)

/-- Settles O24: the sum is exact, so `pc` is beyond the last fetchable address as soon as the sum is. -/
theorem offsetJumpSetsPc : Obligations.OffsetJumpSetsPc := by
  intro nnn s
  refine ⟨_, exec_jpV0 nnn s, offsetOperand_toNat s nnn, sameRegs_setPc s _, onlyRegsAndPc_setPc s _, ?_⟩
  intro hsum hr
  exact step_setPc_beyond hr (by rwa [offsetOperand_toNat])

/-! ### The skips -/

/-- An instruction that ends in `skipIf` on a test of its condition skips exactly when the condition holds (rule R85). -/
theorem skipsWhen_of_skipIf {i : Instr} {c : State → Prop} (test : State → Bool)
    (hexec : ∀ s, exec i s = .next (s.skipIf (test s))) (htest : ∀ s, test s = true ↔ c s) : SkipsWhen i c := by
  intro s
  have hnext := hexec s
  rw [State.skipIf_eq] at hnext
  refine ⟨_, hnext, fun hc => ?_, fun hc => ?_, sameRegs_setPc s _, onlyRegsAndPc_setPc s _⟩
  · exact if_pos ((htest s).mpr hc)
  · exact if_neg (mt (htest s).mp hc)

/-- Settles O28: each of the four ends in `skipIf` on the comparison its condition states. -/
theorem conditionalSkips : Obligations.ConditionalSkips := by
  intro x y nn
  refine ⟨?_, ?_, ?_, ?_⟩
  · exact skipsWhen_of_skipIf (fun s => s.reg x == nn) (fun _ => rfl) (fun _ => beq_iff_eq)
  · exact skipsWhen_of_skipIf (fun s => s.reg x != nn) (fun _ => rfl) (fun _ => bne_iff_ne)
  · exact skipsWhen_of_skipIf (fun s => s.reg x == s.reg y) (fun _ => rfl) (fun _ => beq_iff_eq)
  · exact skipsWhen_of_skipIf (fun s => s.reg x != s.reg y) (fun _ => rfl) (fun _ => bne_iff_ne)

/-! ### Call and return -/

/-- A state that differs at most in `pc`, the stack and its pointer has everything else as it was. -/
theorem frame_of_control {s t : State} (h : t = { s with pc := t.pc, stack := t.stack, sp := t.sp }) :
    SameRegsExcept [] s t ∧ SameMemory s t ∧ SameDisplay s t ∧ SameTimers s t ∧ SameKeypad s t ∧ SameIndex s t ∧
      SameFault s t := by
  rw [h]
  exact ⟨fun _ _ => rfl, fun _ => rfl, fun _ _ => rfl, ⟨rfl, rfl⟩, ⟨fun _ => rfl, rfl, rfl⟩, rfl, rfl⟩

/-- `2NNN` with room on the stack (rule R101). -/
theorem exec_call_room (nnn : BitVec 12) (s : State) (h : s.sp.val < 16) :
    exec (.call nnn) s = .next { s with
      pc := addressOperand nnn, stack := s.stack.set s.sp.val s.pc, sp := ⟨s.sp.val + 1, by omega⟩ } := by
  rw [exec, execCall, State.push_room s s.pc h]
  rfl

/-- `2NNN` with a full stack (rule R101). -/
theorem exec_call_full (nnn : BitVec 12) (s : State) (h : s.sp.val = 16) :
    exec (.call nnn) s = .next (s.raise .stackOverflow) := by
  rw [exec, execCall, State.push_full s s.pc h]

/-- `00EE` with the live entries `0` to `n` on the stack (rule R102). -/
theorem exec_ret_live (s : State) {n : Nat} (h : s.sp.val = n + 1) :
    exec .ret s = .next { s with pc := s.stack[n], sp := ⟨n, by omega⟩ } := by
  obtain rfl : n = s.sp.val - 1 := by omega
  rw [exec, execRet, State.pop_live s (by omega)]
  rfl

/-- `00EE` with an empty stack (rule R102). -/
theorem exec_ret_empty (s : State) (h : s.sp.val = 0) : exec .ret s = .next (s.raise .stackUnderflow) := by
  rw [exec, execRet, State.pop_empty s h]

/-- Settles O25, by whether the stack has room. -/
theorem callPushesAndJumps : Obligations.CallPushesAndJumps := by
  intro nnn s
  constructor
  · intro hroom
    refine ⟨_, exec_call_room nnn s hroom, addressOperand_toNat nnn, rfl, fun j hj => ?_, frame_of_control rfl⟩
    exact (Vector.getElem_set hroom hj).trans (if_congr eq_comm rfl rfl)
  · intro hfull
    exact ⟨_, exec_call_full nnn s hfull, s.raise_fault _⟩

/-- Settles O26, by whether the stack holds an entry. -/
theorem returnPops : Obligations.ReturnPops := by
  intro s
  constructor
  · intro hlive
    exact ⟨_, exec_ret_live s (by omega), rfl, rfl, rfl, frame_of_control rfl⟩
  · intro hempty
    exact ⟨_, exec_ret_empty s hempty, s.raise_fault _⟩

/-- Settles O27: the return takes the entry the call wrote, which is the `pc` behind the call. -/
theorem returnUndoesCall : Obligations.ReturnUndoesCall := by
  intro nnn s hroom
  refine ⟨_, exec_call_room nnn s hroom, fun u hsp htop => ?_⟩
  have hlive : u.sp.val = s.sp.val + 1 := congrArg Fin.val hsp
  have hentry : u.stack[s.sp.val] = s.pc := htop.trans (Vector.getElem_set_self hroom)
  exact ⟨_, exec_ret_live u hlive, hentry, rfl⟩

end Sys2Proof
end

section
/-! PROOFS. The family of 42_alu.md: loads and copies (rules R120, R122), the immediate add (rule R121), the logic (rules R123 to
R125), carry and not-borrow (rules R126, R127, R129), the shifts (rules R128, R130) and the random byte (rule R131).

The order: what a register write leaves unchanged; the instructions that write one register; the flags and the instructions
that write one; the random byte, of the instruction and of the step. -/

namespace Sys2Proof

open Machine

/-! ### A write of a register -/

/-- A state that differs at most in the registers, `pc` and the count of free values has everything else as it was. -/
theorem onlyRegsAndPc_of_registers {s t : State} (h : t = { s with v := t.v, pc := t.pc, draws := t.draws }) :
    OnlyRegsAndPc s t := by
  rw [h]
  exact ⟨fun _ => rfl, ⟨rfl, rfl⟩, fun _ _ => rfl, ⟨rfl, rfl⟩, ⟨fun _ => rfl, rfl, rfl⟩, rfl, rfl⟩

theorem sameRegs_setReg (s : State) (x : Reg) (b : Byte) : SameRegsExcept [x] s (s.setReg x b) :=
  fun _ hr => State.reg_setReg_other s b (List.ne_of_not_mem_cons hr)

/-- A write of one register leaves `pc`, the other registers and all other state as they were. -/
theorem frame_setReg (s : State) (x : Reg) (b : Byte) :
    (s.setReg x b).pc = s.pc ∧ SameRegsExcept [x] s (s.setReg x b) ∧ OnlyRegsAndPc s (s.setReg x b) :=
  ⟨rfl, sameRegs_setReg s x b, onlyRegsAndPc_of_registers rfl⟩

theorem sameRegs_setResultFlag (s : State) (x : Reg) (result flag : Byte) :
    SameRegsExcept [x, 15] s (s.setResultFlag x result flag) := by
  intro r hr
  obtain ⟨hx, hvf⟩ := List.ne_and_not_mem_of_not_mem_cons hr
  exact (State.reg_setReg_other _ flag (List.ne_of_not_mem_cons hvf)).trans (State.reg_setReg_other s result hx)

/-- The flag is what remains in `VF`, whichever register holds the result (rule R6). -/
theorem reg_setResultFlag_vf (s : State) (x : Reg) (result flag : Byte) :
    (s.setResultFlag x result flag).reg 15 = flag :=
  State.reg_setReg_same _ vf flag

theorem reg_setResultFlag_result (s : State) {x : Reg} (result flag : Byte) (hx : x ≠ 15) :
    (s.setResultFlag x result flag).reg x = result :=
  (State.reg_setReg_other _ flag hx).trans (State.reg_setReg_same s x result)

/-! ### The instructions that write one register -/

/-- An instruction that is one register write sets that register and nothing else. -/
theorem setsReg_of_setReg {i : Instr} {x : Reg} {value : State → Byte}
    (hexec : ∀ s, exec i s = .next (s.setReg x (value s))) : SetsReg i x value :=
  fun s => ⟨_, hexec s, s.reg_setReg_same x _, frame_setReg s x _⟩

/-- Settles O29: both are one register write. -/
theorem loadsAndCopies : Obligations.LoadsAndCopies :=
  fun _ _ _ => ⟨setsReg_of_setReg fun _ => rfl, setsReg_of_setReg fun _ => rfl⟩

theorem exec_or (x y : Reg) (s : State) : exec (.or x y) s = .next (s.setReg x (s.reg x ||| s.reg y)) := rfl

theorem exec_and (x y : Reg) (s : State) : exec (.and x y) s = .next (s.setReg x (s.reg x &&& s.reg y)) := rfl

theorem exec_xor (x y : Reg) (s : State) : exec (.xor x y) s = .next (s.setReg x (s.reg x ^^^ s.reg y)) := rfl

/-- Settles O30: each is one register write, of the bitwise operation on the old values. -/
theorem logicLeavesFlag : Obligations.LogicLeavesFlag := by
  intro x y s
  refine ⟨_, _, _, exec_or x y s, exec_and x y s, exec_xor x y s, fun j _ => ?_,
    frame_setReg s x _, frame_setReg s x _, frame_setReg s x _⟩
  simp only [State.reg_setReg_same]
  exact ⟨BitVec.getLsbD_or, BitVec.getLsbD_and, BitVec.getLsbD_xor⟩

/-- The 8-bit sum is the sum of the numbers, reduced. -/
theorem add_eq_ofNat_mod (a b : Byte) : a + b = BitVec.ofNat 8 ((a.toNat + b.toNat) % 256) := by
  apply BitVec.eq_of_toNat_eq
  rw [BitVec.toNat_add, BitVec.toNat_ofNat, Nat.mod_mod]

/-- Settles O31: one register write, of the wrapped sum. -/
theorem addImmediateWraps : Obligations.AddImmediateWraps :=
  fun x nn => setsReg_of_setReg fun s => by rw [← add_eq_ofNat_mod]; rfl

/-! ### The flags -/

/-- A flag that stands for a condition is 1 exactly when it holds. -/
theorem toNat_flagByte_decide (p : Prop) [Decidable p] : (flagByte (decide p)).toNat = if p then 1 else 0 := by
  by_cases h : p <;> simp [flagByte, h]

/-- A flag that stands for a bit of a byte is that bit of its value. -/
theorem toNat_flagByte_getLsbD (b : Byte) (j : Nat) : (flagByte (b.getLsbD j)).toNat = b.toNat / 2 ^ j % 2 := by
  rw [BitVec.getLsbD, Nat.testBit_eq_decide_div_mod_eq, toNat_flagByte_decide]
  split <;> omega

theorem toNat_carryFlag (a b : Byte) : (carryFlag a b).toNat = if a.toNat + b.toNat > 255 then 1 else 0 :=
  toNat_flagByte_decide _

theorem toNat_noBorrowFlag (a b : Byte) : (noBorrowFlag a b).toNat = if a.toNat ≥ b.toNat then 1 else 0 :=
  toNat_flagByte_decide _

theorem toNat_rightShiftFlag (b : Byte) : (rightShiftFlag b).toNat = b.toNat % 2 := by
  rw [rightShiftFlag, toNat_flagByte_getLsbD, Nat.pow_zero, Nat.div_one]

theorem toNat_leftShiftFlag (b : Byte) : (leftShiftFlag b).toNat = b.toNat / 128 := by
  have hb := b.isLt
  rw [leftShiftFlag, toNat_flagByte_getLsbD]
  omega

/-! ### The instructions that write a result and a flag -/

/-- An instruction that writes a result and then the flag leaves the flag in `VF`, and the result where `X` is another
register (decision D6). -/
theorem setsRegAndFlag_of_setResultFlag {i : Instr} {x : Reg} {value flag : State → Nat} (result bit : State → Byte)
    (hexec : ∀ s, exec i s = .next (s.setResultFlag x (result s) (bit s)))
    (hresult : ∀ s, (result s).toNat = value s) (hbit : ∀ s, (bit s).toNat = flag s) : SetsRegAndFlag i x value flag := by
  intro s
  refine ⟨_, hexec s, ?_, fun hx => ?_, rfl, sameRegs_setResultFlag s x _ _, onlyRegsAndPc_of_registers rfl⟩
  · rw [reg_setResultFlag_vf, hbit]
  · rw [reg_setResultFlag_result s _ _ hx, hresult]

/-- Settles O32: the sum wraps, and the flag is its carry. -/
theorem addSetsCarry : Obligations.AddSetsCarry := by
  intro x y
  exact setsRegAndFlag_of_setResultFlag (fun s => s.reg x + s.reg y) (fun s => carryFlag (s.reg x) (s.reg y))
    (fun _ => rfl) (fun _ => BitVec.toNat_add _ _) (fun _ => toNat_carryFlag _ _)

/-- The 8-bit difference, with the 256 that a borrow adds. -/
theorem toNat_sub_byte (a b : Byte) : (a - b).toNat = (a.toNat + 256 - b.toNat) % 256 := by
  have hb := b.isLt
  rw [BitVec.toNat_sub]
  omega

/-- Settles O33: the two differ in the order of the operands alone. -/
theorem subtractSetsNoBorrow : Obligations.SubtractSetsNoBorrow := by
  intro x y
  constructor
  · exact setsRegAndFlag_of_setResultFlag (fun s => s.reg x - s.reg y) (fun s => noBorrowFlag (s.reg x) (s.reg y))
      (fun _ => rfl) (fun _ => toNat_sub_byte _ _) (fun _ => toNat_noBorrowFlag _ _)
  · exact setsRegAndFlag_of_setResultFlag (fun s => s.reg y - s.reg x) (fun s => noBorrowFlag (s.reg y) (s.reg x))
      (fun _ => rfl) (fun _ => toNat_sub_byte _ _) (fun _ => toNat_noBorrowFlag _ _)

theorem toNat_shiftRight_one (b : Byte) : (b >>> 1).toNat = b.toNat / 2 := by
  rw [BitVec.toNat_ushiftRight, Nat.shiftRight_eq_div_pow, Nat.pow_one]

theorem toNat_shiftLeft_one (b : Byte) : (b <<< 1).toNat = b.toNat * 2 % 256 := by
  rw [BitVec.toNat_shiftLeft, Nat.shiftLeft_eq, Nat.pow_one]

/-- Settles O34: a shift by one halves or doubles the value, and the flag is the end bit it moves out. -/
theorem shiftsSetShiftedOutBit : Obligations.ShiftsSetShiftedOutBit := by
  intro x y
  constructor
  · exact setsRegAndFlag_of_setResultFlag (fun s => s.reg x >>> 1) (fun s => rightShiftFlag (s.reg x))
      (fun _ => rfl) (fun _ => toNat_shiftRight_one _) (fun _ => toNat_rightShiftFlag _)
  · exact setsRegAndFlag_of_setResultFlag (fun s => s.reg x <<< 1) (fun s => leftShiftFlag (s.reg x))
      (fun _ => rfl) (fun _ => toNat_shiftLeft_one _) (fun _ => toNat_leftShiftFlag _)

/-! ### The random byte -/

/-- `CXNN` draws a byte and writes it AND `NN` (rules R131, R133). -/
theorem exec_rnd (x : Reg) (nn : Byte) (s : State) :
    exec (.rnd x nn) s =
      .next ({ s with draws := s.draws + 1 }.setReg x (Config.randomByte s.draws &&& nn)) := rfl

/-- Settles O35: the draw moves the count alone, and then one register is written. -/
theorem randomMasksDrawnByte : Obligations.RandomMasksDrawnByte := by
  intro x nn s
  exact ⟨_, exec_rnd x nn s, State.reg_setReg_same _ x _, rfl, rfl, sameRegs_setReg { s with draws := s.draws + 1 } x _,
    onlyRegsAndPc_of_registers rfl⟩

/-- How many free bytes an instruction draws when it completes: `exec_draws` says so of the model. -/
def drawCount : Instr → Nat
  | .rnd _ _ => 1
  | _ => 0

theorem drawCount_cases (i : Instr) :
    (drawCount i = 1 ∧ ∃ x nn, i = .rnd x nn) ∨ (drawCount i = 0 ∧ ∀ x nn, i ≠ .rnd x nn) := by
  cases i with
  | rnd x nn => exact .inl ⟨rfl, x, nn, rfl⟩
  | _ => exact .inr ⟨rfl, nofun⟩

/-- From `s` to `t` the count of free values went up by what the instruction draws. -/
def CountsItsDraws (i : Instr) (s t : State) : Prop := t.draws = s.draws + drawCount i

theorem skipIf_draws (s : State) (c : Bool) : (s.skipIf c).draws = s.draws := by
  rw [State.skipIf_eq, State.setPc_draws]

theorem waitStep_draws (x : Reg) (s : State) : (waitStep x s).draws = s.draws := by
  cases hk : s.keyEvent with
  | none => rw [waitStep_none hk]
  | some k =>
    rw [waitStep_some hk]
    rfl

/-- Every instruction that completes draws the bytes it counts. -/
theorem exec_draws (i : Instr) (s : State) : OnCompletion (CountsItsDraws i s) (exec i s) := by
  cases i with
  | rnd | cls | jp | jpV0 | ldImm | addImm | ldReg | or | and | xor | addReg | sub | shr | subn | shl | ldVxDt | ldVxKey
  | ldDtVx | ldStVx | ldI | addI | ldF => exact .next rfl
  | seImm | sneImm | seReg | sneReg | skp | sknp => exact .next (skipIf_draws s _)
  | ldB x => exact .store _ (decimalDigits_ne_nil _) rfl
  | storeRegs x => exact .store _ (rangeOperand_ne_nil s x) rfl
  | call nnn =>
    rcases Nat.lt_succ_iff_lt_or_eq.mp s.sp.isLt with hroom | hfull
    · rw [exec_call_room nnn s hroom]
      exact .next rfl
    · rw [exec_call_full nnn s hfull]
      exact .raise _ s _
  | ret =>
    cases hsp : s.sp.val with
    | zero =>
      rw [exec_ret_empty s hsp]
      exact .raise _ s _
    | succ n =>
      rw [exec_ret_live s hsp]
      exact .next rfl
  | drw | loadRegs =>
    simp only [exec, execDrw, execLoadRegs]
    split
    · exact .next rfl
    · exact .raise _ s _

/-- Settles O15: a wait step draws nothing, and an instruction that completes draws the bytes it counts. -/
theorem randomByteDrawnOnlyByRandom : Obligations.RandomByteDrawnOnlyByRandom := by
  intro s t h ht
  obtain ⟨-, ⟨x, ha, rfl⟩ | ⟨-, f, -, rfl⟩ | ⟨ha, i, hi, e⟩⟩ := step_cases h
  · exact .inr ⟨waitStep_draws x s, fun hn => absurd (ha.symm.trans hn) (Option.some_ne_none x)⟩
  · exact absurd ht (Option.some_ne_none f)
  · have hdraws : t.draws = s.draws + drawCount i := exec_draws i (advance s) t e ht
    simp only [hi, ne_eq, Except.ok.injEq]
    rcases drawCount_cases i with ⟨hcount, hrnd⟩ | ⟨hcount, hother⟩ <;> rw [hcount] at hdraws
    · exact .inl ⟨hdraws, ha, hrnd⟩
    · exact .inr ⟨hdraws, fun _ => hother⟩

end Sys2Proof
end

section
/-! PROOFS. The family of 43_index_memory.md: the writes of `I` (rules R140 to R142) and the glyph `FX29` points at (rule R26),
the decimal digits (rule R143), the registers stored and loaded (rules R144, R145), and the load behind a store.

The order: what a write of `I` leaves unchanged and the three instructions that make one; what a write of memory leaves
unchanged and the two instructions that store; the load, and the load behind a store. -/

namespace Sys2Proof

open Machine

/-! ### The instructions that write the index register -/

/-- An instruction that is one write of `I` sets `I` and nothing else. -/
theorem setsIndex_of_setI {i : Instr} {value : State → Nat} (target : State → Word)
    (hexec : ∀ s, exec i s = .next (s.setI (target s))) (htarget : ∀ s, (target s).toNat = value s) :
    SetsIndex i value :=
  fun s => ⟨_, hexec s, htarget s, rfl, fun _ _ => rfl, fun _ => rfl, ⟨rfl, rfl⟩, fun _ _ => rfl, ⟨rfl, rfl⟩,
    ⟨fun _ => rfl, rfl, rfl⟩, rfl⟩

/-- A number that fits its width is kept exactly. -/
theorem toNat_ofNat_of_lt {w n : Nat} (h : n < 2 ^ w) : (BitVec.ofNat w n).toNat = n :=
  (BitVec.toNat_ofNat n w).trans (Nat.mod_eq_of_lt h)

/-- The sum is reduced to 12 bits (rule R141). -/
theorem toNat_indexSum (s : State) (x : Reg) :
    (indexSum s x).toNat = (s.i.toNat + (s.reg x).toNat) % 4096 :=
  toNat_ofNat_of_lt (by omega)

/-- Five times an 8-bit value fits 16 bits, so the product is exact (rule R142). -/
theorem toNat_glyphOperand (b : Byte) : (glyphOperand b).toNat = b.toNat * 5 := by
  have hb := b.isLt
  have hlt : b.toNat * 5 < 2 ^ 16 := by omega
  rw [glyphOperand, Config.fontBase_eq, Nat.zero_add, toNat_ofNat_of_lt hlt]

/-- Settles O36: both are one write of `I`. -/
theorem indexLoadAndAdd : Obligations.IndexLoadAndAdd :=
  fun nnn x => ⟨setsIndex_of_setI (fun _ => addressOperand nnn) (fun _ => rfl) fun _ => addressOperand_toNat nnn,
    setsIndex_of_setI (fun s => indexSum s x) (fun _ => rfl) fun s => toNat_indexSum s x⟩

theorem exec_ldF (x : Reg) (s : State) : exec (.ldF x) s = .next (s.setI (glyphOperand (s.reg x))) := rfl

/-- Settles O37: the glyphs stand five bytes apart from `FONT_BASE` = 0, so a digit's five bytes lie in the font. -/
theorem glyphAddress : Obligations.GlyphAddress := by
  refine fun x => ⟨setsIndex_of_setI (fun s => glyphOperand (s.reg x)) (exec_ldF x) fun s => toNat_glyphOperand _, ?_⟩
  intro s t hfont hdigit hexec j hj
  have ht : s.setI (glyphOperand (s.reg x)) = t := Host.Outcome.next.inj ((exec_ldF x s).symm.trans hexec)
  have hin : (s.reg x).toNat * 5 + j < Config.fontBytes := by rw [Config.fontBytes_eq]; omega
  have hbyte := hfont _ hin
  rw [Config.fontBase_eq, Nat.zero_add] at hbyte
  rw [← ht, State.setI_i, toNat_glyphOperand]
  exact hbyte

/-! ### The instructions that store -/

/-- A write of memory leaves the display and all other state as they were. -/
theorem frame_setMem (s : State) (m : List Host.Cell) :
    SameDisplay s (s.setMem m) ∧ OnlyMemoryDisplayAndRegs [] s (s.setMem m) :=
  ⟨fun _ _ => rfl, fun _ _ => rfl, rfl, ⟨rfl, rfl⟩, ⟨rfl, rfl⟩, ⟨fun _ => rfl, rfl, rfl⟩, rfl, rfl⟩

/-- A run of writes changes no byte outside it. -/
theorem sameMemoryOutside_writeAll (s : State) (a : Nat) {bs : List Byte} {n : Nat} (hn : bs.length = n) :
    SameMemoryOutside a n s (s.setMem (Memory.writeAll s.mem a bs)) :=
  fun _ hb => Memory.read_writeAll_outside s.mem bs (hn ▸ hb)

/-- `FX33` between the font and the end of memory completes with its bytes written. -/
theorem exec_ldB_inside (x : Reg) (s : State) (h : 0x050 ≤ s.i.toNat) (h' : s.i.toNat + 2 ≤ 0xFFF) :
    exec (.ldB x) s = .next (s.setMem (Memory.writeAll s.mem s.i.toNat (decimalDigits (s.reg x)))) := by
  have hend : s.i.toNat + (decimalDigits (s.reg x)).length ≤ 0x1000 := by rw [length_decimalDigits]; omega
  rw [exec_ldB, memWriteBytes_inside s _ h hend, settle]

/-- The digits `FX33` stores read back from where it stores them. -/
theorem byteAt_writeAll_decimalDigits {s : State} (hm : Memory.wf s.mem) (b : Byte) (a : Nat) {j : Nat} (hj : j < 3) :
    (s.setMem (Memory.writeAll s.mem a (decimalDigits b))).byteAt (a + j) = (decimalDigits b)[j] :=
  Memory.read_writeAll_inside s.mem hm.1 _ hj

/-- Each decimal digit of an 8-bit value fits a byte, so it is stored exactly (rule R143). -/
theorem toNat_decimalDigits (b : Byte) :
    (decimalDigits b)[0].toNat = b.toNat / 100 ∧ (decimalDigits b)[1].toNat = b.toNat / 10 % 10 ∧
      (decimalDigits b)[2].toNat = b.toNat % 10 := by
  have hb := b.isLt
  exact ⟨toNat_ofNat_of_lt (by omega), toNat_ofNat_of_lt (by omega), toNat_ofNat_of_lt (by omega)⟩

/-- Settles O38: the three digits are written from `I` upward and read back. -/
theorem decimalDigitsStored : Obligations.DecimalDigitsStored := by
  intro x s hm hlo hhi
  have hread {j : Nat} (hj : j < 3) := congrArg BitVec.toNat (byteAt_writeAll_decimalDigits hm (s.reg x) s.i.toNat hj)
  obtain ⟨hundreds, tens, units⟩ := toNat_decimalDigits (s.reg x)
  exact ⟨_, exec_ldB_inside x s hlo hhi, (hread (j := 0) (by decide)).trans hundreds,
    (hread (j := 1) (by decide)).trans tens, (hread (j := 2) (by decide)).trans units,
    sameMemoryOutside_writeAll s _ (length_decimalDigits _), frame_setMem s _⟩

/-- Settles O39: the registers are written from `I` upward and read back. -/
theorem registersStored : Obligations.RegistersStored := by
  intro x s hm hlo hhi
  exact ⟨_, exec_storeRegs_inside x s hlo hhi, fun r hr => byteAt_writeAll_rangeOperand hm x s.i.toNat hr,
    sameMemoryOutside_writeAll s _ (length_rangeOperand s x), frame_setMem s _⟩

/-! ### The load, and the load behind a store -/

theorem exec_loadRegs (x : Reg) (s : State) : exec (.loadRegs x) s = execLoadRegs x s := rfl

/-- `FX65` inside memory completes with the bytes from `I` upward (rule R145). -/
theorem exec_loadRegs_inside (x : Reg) (s : State) (h : s.i.toNat + x.val ≤ 0xFFF) :
    exec (.loadRegs x) s =
      .next (s.setRegs ((List.range (x.val + 1)).map fun j => s.byteAt (s.i.toNat + j))) := by
  have hread : memReadBytes s (effectiveAddress s 0) (rangeLength x) =
      .ok ((List.range (x.val + 1)).map fun j => s.byteAt (s.i.toNat + j)) :=
    memReadBytes_inside s (by rw [effectiveAddress_eq, rangeLength]; omega)
  rw [exec_loadRegs, execLoadRegs, hread]

/-- Loading `n` bytes from a function fills the first `n` registers with its values and leaves the others. -/
theorem reg_setRegs_range (s : State) (f : Nat → Byte) (n : Nat) (r : Reg) :
    (s.setRegs ((List.range n).map f)).reg r = if r.val < n then f r.val else s.reg r := by
  rw [State.reg_setRegs, List.getElem?_map]
  split
  · rw [List.getElem?_range ‹_›]
    rfl
  · rw [List.getElem?_eq_none (by rw [List.length_range]; omega)]
    rfl

/-- Settles O40: a register up to `X` takes the byte at its place, a register above `X` is beyond the bytes read. -/
theorem registersLoaded : Obligations.RegistersLoaded := by
  intro x s hhi
  refine ⟨_, exec_loadRegs_inside x s hhi, fun r => ?_, rfl, onlyRegsAndPc_of_registers rfl⟩
  rw [reg_setRegs_range]
  exact if_congr Nat.lt_succ_iff rfl rfl

/-- Settles O41: the load reads at `I` the bytes the store wrote there, from memory and `I` alone. -/
theorem loadUndoesStore : Obligations.LoadUndoesStore := by
  intro x s hm hlo hhi
  obtain ⟨t, hstore, hbyte, -, -, -, -, -, -, -, hindex, -⟩ := registersStored x s hm hlo hhi
  refine ⟨t, hstore, fun u hmem hi => ?_⟩
  have hiu : u.i = s.i := hi.trans hindex
  obtain ⟨w, hload, hreg, -⟩ := registersLoaded x u (by rw [hiu]; exact hhi)
  refine ⟨w, hload, fun r hr => ?_⟩
  calc w.reg r = u.byteAt (u.i.toNat + r.val) := (hreg r).trans (if_pos hr)
    _ = t.byteAt (s.i.toNat + r.val) := by rw [State.byteAt, State.byteAt, hmem, hiu]
    _ = s.reg r := hbyte r hr

end Sys2Proof
end

section
/-! PROOFS. The family of 44_display.md: the clearing of the display (rule R160), the sprite drawn on it (rules R161, R162) and
the sprite drawn twice (conflict C8).

The order: what a write of the display leaves unchanged, and `00E0`; the draw as a list of cells inverted one after the other;
which cells a sprite's list holds, each of them once; `DXYN`, once and twice. -/

namespace Sys2Proof

open Machine

/-! ### A write of the display -/

/-- A write of the display leaves memory and all other state as they were. -/
theorem frame_setFb (s : State) (fb : Vector (BitVec 64) 32) :
    SameMemory s (s.setFb fb) ∧ OnlyMemoryDisplayAndRegs [] s (s.setFb fb) :=
  ⟨fun _ => rfl, fun _ _ => rfl, rfl, ⟨rfl, rfl⟩, ⟨rfl, rfl⟩, ⟨fun _ => rfl, rfl, rfl⟩, rfl, rfl⟩

/-- A write of the display and of the flag leaves memory and all other state as they were. -/
theorem frame_setFb_setVf (s : State) (fb : Vector (BitVec 64) 32) (flag : Byte) :
    SameMemory s ((s.setFb fb).setReg vf flag) ∧ OnlyMemoryDisplayAndRegs [15] s ((s.setFb fb).setReg vf flag) :=
  ⟨fun _ => rfl, sameRegs_setReg (s.setFb fb) vf flag, rfl, ⟨rfl, rfl⟩, ⟨rfl, rfl⟩, ⟨fun _ => rfl, rfl, rfl⟩, rfl, rfl⟩

/-! ### Clearing -/

theorem exec_cls (s : State) : exec .cls s = .next (s.setFb (Vector.replicate 32 0)) := rfl

/-- Settles O43: the blank display has no cell on, and a running step reports `00E0`. -/
theorem clearDisplay : Obligations.ClearDisplay := by
  refine fun s => ⟨⟨_, exec_cls s, fun c _ => cellOf_blank c, frame_setFb s _⟩, fun ⟨hf, ha⟩ hi => ?_⟩
  have hstep : step s = .next ((advance s).setFb (Vector.replicate 32 0)) := step_running hf ha hi
  obtain ⟨changed, tone, hanswer, -, hflag⟩ := stepReportsDisplayAndTone s _ hstep hf
  obtain rfl : changed = true := hflag.mpr ⟨ha, .inl hi⟩
  exact ⟨_, tone, hanswer, fun c _ => cellOf_blank c⟩

/-! ### The draw as a list of cells to invert -/

/-- Invert one cell, and keep whether some cell inverted so far was on (rule R161). -/
def invertCell (d : Drawing) (c : Nat) : Drawing :=
  { fb := flipCell d.fb c, collision := d.collision || cellOf d.fb c }

theorem drawPixel_eq (x0 y0 dy : Nat) (row : Byte) (d : Drawing) (dx : Nat) :
    drawPixel x0 y0 dy row d dx = if spritePixel row dx then invertCell d (spriteCell x0 y0 dx dy) else d := rfl

/-- The cells the 1 bits of row `dy` land on, from left to right. -/
def rowCells (x0 y0 dy : Nat) (row : Byte) : List Nat :=
  ((List.range 8).filter (spritePixel row)).map fun dx => spriteCell x0 y0 dx dy

/-- The cells the 1 bits of the rows from `dy` down land on. -/
def rowsCells (x0 y0 : Nat) : Nat → List Byte → List Nat
  | _, [] => []
  | dy, row :: rows => rowCells x0 y0 dy row ++ rowsCells x0 y0 (dy + 1) rows

theorem drawRow_eq_foldl (x0 y0 dy : Nat) (row : Byte) (d : Drawing) :
    drawRow x0 y0 dy row d = (rowCells x0 y0 dy row).foldl invertCell d := by
  rw [rowCells, List.foldl_map, List.foldl_filter]
  rfl

theorem drawRows_eq_foldl (x0 y0 dy : Nat) (rows : List Byte) (d : Drawing) :
    drawRows x0 y0 dy rows d = (rowsCells x0 y0 dy rows).foldl invertCell d := by
  induction rows generalizing dy d with
  | nil => rfl
  | cons row rows ih => rw [drawRows, ih, drawRow_eq_foldl, rowsCells, List.foldl_append]

/-- Inverting cells of the display, none of them twice, inverts exactly the cells of the list. -/
theorem cellOf_foldl_invertCell {l : List Nat} (hl : l.Nodup) (hlt : ∀ c ∈ l, c < 2048) (d : Drawing) (c : Nat) :
    cellOf (l.foldl invertCell d).fb c = (cellOf d.fb c ^^ decide (c ∈ l)) := by
  induction l generalizing d with
  | nil => simp
  | cons a l ih =>
    obtain ⟨ha, hl⟩ := List.nodup_cons.mp hl
    obtain ⟨halt, hlt⟩ := List.forall_mem_cons.mp hlt
    rw [List.foldl_cons, ih hl hlt, invertCell, cellOf_flipCell d.fb halt]
    by_cases hc : c = a
    · simp [hc, ha]
    · simp [hc]

/-- Since no cell comes twice, a collision is met exactly when a cell of the list was on at the start. -/
theorem collision_foldl_invertCell {l : List Nat} (hl : l.Nodup) (hlt : ∀ c ∈ l, c < 2048) (d : Drawing) :
    (l.foldl invertCell d).collision = true ↔ d.collision = true ∨ ∃ c ∈ l, cellOf d.fb c = true := by
  induction l generalizing d with
  | nil => simp
  | cons a l ih =>
    obtain ⟨ha, hl⟩ := List.nodup_cons.mp hl
    obtain ⟨halt, hlt⟩ := List.forall_mem_cons.mp hlt
    have later : ∀ c ∈ l, cellOf (flipCell d.fb a) c = cellOf d.fb c := by
      intro c hc
      have hne : c ≠ a := ne_of_mem_of_not_mem hc ha
      simp [cellOf_flipCell d.fb halt, hne]
    rw [List.foldl_cons, ih hl hlt, invertCell, List.exists_mem_cons_iff, ← or_assoc, Bool.or_eq_true]
    exact or_congr_right (exists_congr fun c => and_congr_right fun hc => by rw [later c hc])

/-! ### The cells of a sprite -/

/-- Pixels of a sprite land on different cells: a row is 8 wide on 64 columns, and there are at most 32 rows. -/
theorem spriteCell_injective {x0 y0 dx dy dx' dy' : Nat} (hdx : dx < 8) (hdx' : dx' < 8) (hdy : dy < 32) (hdy' : dy' < 32)
    (h : spriteCell x0 y0 dx dy = spriteCell x0 y0 dx' dy') : dx = dx' ∧ dy = dy' := by
  simp only [spriteCell, Config.dispW_eq, Config.dispH_eq] at h
  omega

theorem mem_rowCells {x0 y0 dy : Nat} {row : Byte} {c : Nat} :
    c ∈ rowCells x0 y0 dy row ↔ ∃ dx < 8, spritePixel row dx = true ∧ spriteCell x0 y0 dx dy = c := by
  simp [rowCells, and_assoc]

theorem mem_rowsCells {x0 y0 dy : Nat} {rows : List Byte} {c : Nat} :
    c ∈ rowsCells x0 y0 dy rows ↔ ∃ j, ∃ h : j < rows.length, c ∈ rowCells x0 y0 (dy + j) rows[j] := by
  induction rows generalizing dy with
  | nil => simp [rowsCells]
  | cons row rows ih =>
    rw [rowsCells, List.mem_append, ih]
    constructor
    · rintro (h | ⟨j, hj, h⟩)
      · exact ⟨0, Nat.succ_pos _, h⟩
      · exact ⟨j + 1, Nat.succ_lt_succ hj, by rwa [← Nat.add_assoc, Nat.add_right_comm]⟩
    · rintro ⟨_ | j, hj, h⟩
      · exact .inl h
      · exact .inr ⟨j, Nat.lt_of_succ_lt_succ hj, by rwa [Nat.add_right_comm, Nat.add_assoc]⟩

theorem nodup_rowCells (x0 y0 : Nat) {dy : Nat} (row : Byte) (hdy : dy < 32) : (rowCells x0 y0 dy row).Nodup := by
  refine (List.nodup_range.filter _).map_on fun dx hdx dx' hdx' h => ?_
  have hlt := List.mem_range.mp (List.mem_filter.mp hdx).1
  have hlt' := List.mem_range.mp (List.mem_filter.mp hdx').1
  exact (spriteCell_injective hlt hlt' hdy hdy h).1

/-- Different rows of a sprite share no cell. -/
theorem row_eq_of_mem_rowCells {x0 y0 dy dy' : Nat} {row row' : Byte} {c : Nat} (hdy : dy < 32) (hdy' : dy' < 32)
    (h : c ∈ rowCells x0 y0 dy row) (h' : c ∈ rowCells x0 y0 dy' row') : dy = dy' := by
  obtain ⟨dx, hdx, -, hc⟩ := mem_rowCells.mp h
  obtain ⟨dx', hdx', -, hc'⟩ := mem_rowCells.mp h'
  exact (spriteCell_injective hdx hdx' hdy hdy' (hc.trans hc'.symm)).2

/-- No cell comes twice among those of at most 32 rows. -/
theorem nodup_rowsCells (x0 y0 : Nat) {dy : Nat} {rows : List Byte} (h : dy + rows.length ≤ 32) :
    (rowsCells x0 y0 dy rows).Nodup := by
  induction rows generalizing dy with
  | nil => exact List.nodup_nil
  | cons row rows ih =>
    rw [List.length_cons] at h
    refine (nodup_rowCells x0 y0 row (by omega)).append (ih (by omega)) fun c hrow hrows => ?_
    obtain ⟨j, hj, hlater⟩ := mem_rowsCells.mp hrows
    have := row_eq_of_mem_rowCells (by omega) (by omega) hrow hlater
    omega

/-- The cells of the sprite of `n` rows at `I` drawn at `(x0, y0)`. -/
def spriteCells (s : State) (x0 y0 n : Nat) : List Nat :=
  rowsCells x0 y0 0 ((List.range n).map fun j => s.byteAt (s.i.toNat + j))

/-- The list holds the cells a 1 bit of the sprite lands on. -/
theorem mem_spriteCells {s : State} {x0 y0 n c : Nat} : c ∈ spriteCells s x0 y0 n ↔ SpriteLights s x0 y0 n c := by
  simp only [spriteCells, mem_rowsCells, mem_rowCells, List.length_map, List.length_range, List.getElem_map,
    List.getElem_range, Nat.zero_add]
  constructor
  · rintro ⟨dy, hdy, dx, hdx, lit, rfl⟩
    exact ⟨dy, dx, hdy, hdx, lit, rfl⟩
  · rintro ⟨dy, dx, hdy, hdx, lit, rfl⟩
    exact ⟨dy, hdy, dx, hdx, lit, rfl⟩

theorem nodup_spriteCells (s : State) (x0 y0 : Nat) {n : Nat} (hn : n ≤ 32) : (spriteCells s x0 y0 n).Nodup :=
  nodup_rowsCells x0 y0 (by simpa using hn)

theorem SpriteLights.lt {s : State} {x0 y0 n c : Nat} (h : SpriteLights s x0 y0 n c) : c < 2048 := by
  obtain ⟨dy, dx, -, -, -, rfl⟩ := h
  exact spriteCell_lt x0 y0 dx dy

/-- The cells of a sprite depend on memory and `I` alone. -/
theorem spriteLights_congr {s t : State} (hm : SameMemory s t) (hi : SameIndex s t) (x0 y0 n c : Nat) :
    SpriteLights t x0 y0 n c ↔ SpriteLights s x0 y0 n c := by
  simp only [SpriteLights, hm _, show t.i = s.i from hi]

/-! ### Drawing -/

/-- The display and the collision after the sprite of `DXYN`. -/
def spriteDrawing (s : State) (x y : Reg) (n : BitVec 4) : Drawing :=
  (spriteCells s (s.reg x).toNat (s.reg y).toNat n.toNat).foldl invertCell ⟨s.fb, false⟩

/-- `DXYN` with its sprite inside memory completes with the sprite's cells inverted and the collision in `VF` (rule R161). -/
theorem exec_drw_inside (x y : Reg) (n : BitVec 4) (s : State) (h : s.i.toNat + n.toNat ≤ 0x1000) :
    exec (.drw x y n) s =
      .next ((s.setFb (spriteDrawing s x y n).fb).setReg vf (collisionFlag (spriteDrawing s x y n).collision)) := by
  have hread : memReadBytes s (effectiveAddress s 0) n.toNat =
      .ok ((List.range n.toNat).map fun j => s.byteAt (s.i.toNat + j)) := memReadBytes_inside s h
  simp only [exec, execDrw, hread, drawRows_eq_foldl]
  rfl

section
variable (s : State) (x y : Reg) (n : BitVec 4)

theorem cellOf_spriteDrawing (c : Nat) : cellOf (spriteDrawing s x y n).fb c =
    (s.cell c ^^ decide (c ∈ spriteCells s (s.reg x).toNat (s.reg y).toNat n.toNat)) :=
  cellOf_foldl_invertCell (nodup_spriteCells s _ _ (by omega)) (fun _ hc => (mem_spriteCells.mp hc).lt) _ c

theorem collision_spriteDrawing : (spriteDrawing s x y n).collision = true ↔
    ∃ c, c < 2048 ∧ SpriteLights s (s.reg x).toNat (s.reg y).toNat n.toNat c ∧ s.cell c = true := by
  rw [spriteDrawing, collision_foldl_invertCell (nodup_spriteCells s _ _ (by omega)) fun _ hc => (mem_spriteCells.mp hc).lt]
  simp only [Bool.false_eq_true, false_or, mem_spriteCells]
  exact exists_congr fun c => ⟨fun ⟨lit, on⟩ => ⟨lit.lt, lit, on⟩, And.right⟩

end

/-- Settles O44: the draw inverts the cells of the sprite's list, and its collision says that one of them was on. -/
theorem drawInvertsSpriteCells : Obligations.DrawInvertsSpriteCells := by
  intro x y n s h
  have hvf := State.reg_setReg_same (s.setFb (spriteDrawing s x y n).fb) vf
    (collisionFlag (spriteDrawing s x y n).collision)
  refine ⟨_, exec_drw_inside x y n s h, fun c _ => ?_, fun hit => ?_, fun miss => ?_, frame_setFb_setVf s _ _⟩
  · have hcell := cellOf_spriteDrawing s x y n c
    rw [← mem_spriteCells]
    exact ⟨fun lit => by rw [decide_eq_true lit, Bool.xor_true] at hcell; exact hcell,
      fun dark => by rw [decide_eq_false dark, Bool.xor_false] at hcell; exact hcell⟩
  · exact hvf.trans (congrArg collisionFlag ((collision_spriteDrawing s x y n).mpr hit))
  · exact hvf.trans (congrArg collisionFlag (Bool.eq_false_iff.mpr (mt (collision_spriteDrawing s x y n).mp miss)))

/-- Settles O45: the second draw finds the same sprite at the same place, so it inverts the same cells again, and it collides
where the first one turned a cell on. -/
theorem drawTwiceRestoresDisplay : Obligations.DrawTwiceRestoresDisplay := by
  intro x y n s hx hy h
  obtain ⟨t, hdraw, hcell, -, -, hmem, hregs, -, -, -, -, hindex, -⟩ := drawInvertsSpriteCells x y n s h
  have hi : t.i = s.i := hindex
  obtain ⟨u, hdraw', hcell', hit, miss, -⟩ := drawInvertsSpriteCells x y n t (by rw [hi]; exact h)
  simp only [hregs x (mt List.mem_singleton.mp hx), hregs y (mt List.mem_singleton.mp hy), spriteLights_congr hmem hindex]
    at hcell' hit miss
  have was_off : (∃ c, c < 2048 ∧ SpriteLights s (s.reg x).toNat (s.reg y).toNat n.toNat c ∧ s.cell c = false) ↔
      ∃ c, c < 2048 ∧ SpriteLights s (s.reg x).toNat (s.reg y).toNat n.toNat c ∧ t.cell c = true :=
    exists_congr fun c => and_congr_right fun hc => and_congr_right fun lit => by
      rw [(hcell c hc).1 lit, Bool.not_eq_true']
  refine ⟨t, u, hdraw, hdraw', fun c hc => ?_, was_off.trans ⟨hit, fun hu => ?_⟩⟩
  · by_cases lit : SpriteLights s (s.reg x).toNat (s.reg y).toNat n.toNat c
    · rw [(hcell' c hc).1 lit, (hcell c hc).1 lit, Bool.not_not]
    · rw [(hcell' c hc).2 lit, (hcell c hc).2 lit]
  · by_contra none_on
    exact absurd (hu.symm.trans (miss none_on)) (by decide)

end Sys2Proof
end

section
/-! PROOFS. The family of 45_keypad_timers.md: the key skips (rules R170, R171), the key wait of `FX0A` (rules R172, R86) up to
the press that ends it, and the instructions of the two timers (rules R173 to R175).

The order: the skips; the entry of the wait, a press reported during it, and the whole wait; the timers. -/

namespace Sys2Proof

open Machine

/-! ### The key skips -/

/-- Settles O46: both end in `skipIf` on the level of the key that the low four bits of `V[X]` select. -/
theorem keySkips : Obligations.KeySkips := by
  intro x
  constructor
  · exact skipsWhen_of_skipIf (fun s => s.key (Fin.ofNat 16 (s.reg x).toNat)) (fun _ => rfl) (fun _ => Iff.rfl)
  · exact skipsWhen_of_skipIf (fun s => !s.key (Fin.ofNat 16 (s.reg x).toNat)) (fun _ => rfl)
      (fun _ => iff_of_eq (Bool.not_eq_true' _))

/-! ### The key wait -/

theorem exec_ldVxKey (x : Reg) (s : State) : exec (.ldVxKey x) s = .next ((s.await x).setPc (s.pc - 2)) := rfl

/-- Settles O47: the advance that the wait takes back is the 2 below the advanced `pc`. -/
theorem keyWaitEntered : Obligations.KeyWaitEntered :=
  fun x s => ⟨_, exec_ldVxKey x s, rfl, rfl, BitVec.sub_add_cancel s.pc 2, fun _ _ => rfl, fun _ => rfl, ⟨rfl, rfl⟩,
    fun _ _ => rfl, ⟨rfl, rfl⟩, fun _ => rfl, rfl, rfl⟩

/-- Without a fault `setKey` moves the named level and the latch (rule R218). -/
theorem setKey_faultless {s : State} (hf : s.fault = none) (k : Key) (p : Bool) :
    setKey s k p = { s.setKeyLevel k p with keyEvent := latchedEvent s k p } := if_pos hf

/-- A press transition is latched when a wait has an empty latch (rule R218, decision D8). -/
theorem latchedEvent_press {s : State} {k : Key} (hk : s.key k = false) (ha : s.awaitingKey ≠ none)
    (he : s.keyEvent = none) : latchedEvent s k true = some k := if_pos ⟨rfl, hk, ha, he⟩

/-- The first press of a wait: the key is down and in the latch, and the rest is as it was. -/
theorem setKey_press {s : State} {x : Reg} {k : Key} (hf : s.fault = none) (ha : s.awaitingKey = some x)
    (he : s.keyEvent = none) (hk : s.key k = false) :
    setKey s k true = { s.setKeyLevel k true with keyEvent := some k } := by
  rw [setKey_faultless hf, latchedEvent_press hk (ha ▸ Option.some_ne_none x) he]

/-- Settles O48: `FX0A` enters the wait at its own address, a wait step with an empty latch changes nothing, and the press
fills the latch, with which the next wait step completes. -/
theorem keyWaitScenario : Obligations.KeyWaitScenario := by
  rintro s x k ⟨hf, ha⟩ hi hk
  obtain ⟨t, hexec, hwait, hlatch, hpc, hregs, -, -, -, -, hkeys, -, hfault⟩ := keyWaitEntered x (advance s)
  have hstep : step s = .next t := (step_running hf ha hi).trans hexec
  have hpc' : t.pc = s.pc := BitVec.add_left_inj 2 |>.mp hpc
  have htf : t.fault = none := hfault.trans hf
  have hidle : step t = .next t := (waitStepCompletesOnPress t x htf hwait).1 hlatch
  refine ⟨t, hstep, hpc', hregs, hidle, ?_⟩
  rw [setKey_press htf hwait hlatch ((hkeys k).trans hk)]
  obtain ⟨u, hcompletes, hnumber, hended, hemptied, hnext, hothers, -, -, -, -, hlevels, -⟩ :=
    (waitStepCompletesOnPress { t.setKeyLevel k true with keyEvent := some k } x htf hwait).2 k rfl
  have hdown : u.key k = true := (hlevels k).trans ((t.key_setKeyLevel k k true).trans (if_pos rfl))
  have hsame : SameRegsExcept [x] s u := fun r hr => (hothers r hr).trans (hregs r List.not_mem_nil)
  exact ⟨u, hcompletes, hnumber, hnext.trans (congrArg (· + 2) hpc'), hended, hemptied, hdown, hsame⟩

/-! ### The timers -/

/-- A state that differs at most in the timers has everything else as it was. -/
theorem frame_of_timers {s t : State} (h : t = { s with dt := t.dt, st := t.st }) :
    SameMemory s t ∧ SameDisplay s t ∧ SameRegsExcept [] s t ∧ t.pc = s.pc ∧ SameStack s t ∧ SameKeypad s t ∧
      SameIndex s t ∧ SameFault s t := by
  rw [h]
  exact ⟨fun _ => rfl, fun _ _ => rfl, fun _ _ => rfl, rfl, ⟨rfl, rfl⟩, ⟨fun _ => rfl, rfl, rfl⟩, rfl, rfl⟩

theorem exec_ldDtVx (x : Reg) (s : State) : exec (.ldDtVx x) s = .next (s.setDt (s.reg x)) := rfl

/-- Settles O49: `FX07` is one register write and `FX15` one write of `DT`. -/
theorem delayTimerReadAndSet : Obligations.DelayTimerReadAndSet :=
  fun x => ⟨setsReg_of_setReg fun _ => rfl, fun s => ⟨_, exec_ldDtVx x s, rfl, rfl, frame_of_timers rfl⟩⟩

theorem exec_ldStVx (x : Reg) (s : State) : exec (.ldStVx x) s = .next (s.setSt (s.reg x)) := rfl

/-- A step of `FX18` reports no changed display (rule R88). -/
theorem fbChanged_ldStVx {s : State} {x : Reg} (hi : fetchInstr s = .ok (.ldStVx x)) : fbChanged s = false := by
  refine Bool.eq_false_iff.mpr fun hchanged => ?_
  obtain ⟨-, h | ⟨_, _, _, h⟩⟩ := (fbChanged_iff s).mp hchanged <;> cases hi.symm.trans h

/-- Settles O50: `FX18` is one write of `ST`, and the step reports the tone of the state it left. -/
theorem soundTimerSet : Obligations.SoundTimerSet := by
  refine fun x s => ⟨⟨_, exec_ldStVx x s, rfl, rfl, frame_of_timers rfl⟩, fun ⟨hf, ha⟩ hi => ?_⟩
  have hstep : step s = .next ((advance s).setSt (s.reg x)) := step_running hf ha hi
  have hfault : ((advance s).setSt (s.reg x)).fault = none := hf
  have hanswer : perform .step s = ((advance s).setSt (s.reg x), .stepped false (decide (0 < (s.reg x).toNat))) := by
    rw [perform_step_next hstep, stepResponse_completed s hfault, fbChanged_ldStVx hi, toneLevel, State.setSt_st]
  exact ⟨_, hanswer, rfl⟩

end Sys2Proof
end

section
/-! PROOFS. The family of 60_exceptions.md: where a step raises a fault (rules R200, R201, R205) and what keeps it (rules R204,
R206), and the transactions between steps: `tick` (rule R215), the read ports (rules R216, R221) and `setKey` (rule R218).

The order: the faults an instruction may raise, and the step; the faulted condition; the timers, the keypad and the read
ports. -/

namespace Sys2Proof

open Machine

/-! ### The faults an instruction may raise -/

/-- If the outcome is a next state with a fault, its cause has the property. -/
def OnFault (P : Fault → Prop) (o : Host.Outcome State Fault Refusal) : Prop :=
  ∀ t c, o = .next t → t.fault = some c → P c

/-- An outcome without a fault raises nothing. -/
theorem OnFault.completes {P : Fault → Prop} {t : State} (h : t.fault = none) : OnFault P (.next t) := by
  rintro _ c ⟨⟩ hc
  cases h.symm.trans hc

theorem OnFault.raise {P : Fault → Prop} (s : State) {f : Fault} (h : P f) : OnFault P (.next (s.raise f)) := by
  rintro _ _ ⟨⟩ ⟨⟩
  exact h

/-- An instruction that ends in stores raises for a store into the font or past the end of memory. -/
theorem OnFault.store {P : Fault → Prop} {s : State} (hf : s.fault = none) {a : Nat} {bs : List Byte} (hb : bs ≠ [])
    (font : a ≤ 0x04F → P .fontWrite) (beyond : 0x1000 < a + bs.length → P .addressOutOfRange) :
    OnFault P (settle s (memWriteBytes s a bs)) := by
  rcases memWriteBytes_cases s a hb with ⟨-, -, e⟩ | ⟨hfont, e⟩ | ⟨-, hend, e⟩ <;> rw [e]
  · exact .completes hf
  · exact .raise s (font hfont)
  · exact .raise s (beyond hend)

/-- The instruction has the cause's own condition in the state (rules R101, R102, R143 to R145, R161): `exec_mayRaise` says that
`exec` raises nothing else. -/
inductive MayRaise (s : State) : Instr → Fault → Prop
  | callFull (nnn : BitVec 12) (full : s.sp.val = 16) : MayRaise s (.call nnn) .stackOverflow
  | retEmpty (empty : s.sp.val = 0) : MayRaise s .ret .stackUnderflow
  | drwBeyond (x y : Reg) (n : BitVec 4) (rows : 0 < n.toNat) (beyond : 0xFFF < s.i.toNat + n.toNat - 1) :
      MayRaise s (.drw x y n) .addressOutOfRange
  | ldBBeyond (x : Reg) (beyond : 0xFFF < s.i.toNat + 2) : MayRaise s (.ldB x) .addressOutOfRange
  | storeRegsBeyond (x : Reg) (beyond : 0xFFF < s.i.toNat + x.val) : MayRaise s (.storeRegs x) .addressOutOfRange
  | loadRegsBeyond (x : Reg) (beyond : 0xFFF < s.i.toNat + x.val) : MayRaise s (.loadRegs x) .addressOutOfRange
  | ldBFont (x : Reg) (font : s.i.toNat ≤ 0x04F) : MayRaise s (.ldB x) .fontWrite
  | storeRegsFont (x : Reg) (font : s.i.toNat ≤ 0x04F) : MayRaise s (.storeRegs x) .fontWrite

theorem skipIf_fault (s : State) (c : Bool) : (s.skipIf c).fault = s.fault := by
  rw [State.skipIf_eq, State.setPc_fault]

theorem waitStep_fault (x : Reg) (s : State) : (waitStep x s).fault = s.fault := by
  cases hk : s.keyEvent with
  | none => rw [waitStep_none hk]
  | some k =>
    rw [waitStep_some hk]
    rfl

section
variable {s : State} (hf : s.fault = none)
include hf

theorem execCall_mayRaise (nnn : BitVec 12) : OnFault (MayRaise s (.call nnn)) (exec (.call nnn) s) := by
  rcases Nat.lt_succ_iff_lt_or_eq.mp s.sp.isLt with hroom | hfull
  · rw [exec_call_room nnn s hroom]
    exact .completes hf
  · rw [exec_call_full nnn s hfull]
    exact .raise s (.callFull nnn hfull)

theorem execRet_mayRaise : OnFault (MayRaise s .ret) (exec .ret s) := by
  cases hsp : s.sp.val with
  | zero =>
    rw [exec_ret_empty s hsp]
    exact .raise s (.retEmpty hsp)
  | succ n =>
    rw [exec_ret_live s hsp]
    exact .completes hf

theorem execLoadRegs_mayRaise (x : Reg) : OnFault (MayRaise s (.loadRegs x)) (exec (.loadRegs x) s) := by
  rcases Nat.lt_or_ge 0xFFF (s.i.toNat + x.val) with hbeyond | hinside
  · rw [exec_loadRegs, execLoadRegs_beyond x s hbeyond]
    exact .raise s (.loadRegsBeyond x hbeyond)
  · rw [exec_loadRegs_inside x s hinside]
    exact .completes hf

theorem execDrw_mayRaise (x y : Reg) (n : BitVec 4) : OnFault (MayRaise s (.drw x y n)) (exec (.drw x y n) s) := by
  rw [exec, execDrw]
  rcases memReadBytes_cases s (effectiveAddress s 0) n.toNat with ⟨-, e⟩ | ⟨hrows, hend, e⟩ <;> rw [e]
  · exact .completes hf
  · rw [effectiveAddress_eq] at hend
    exact .raise s (.drwBeyond x y n hrows (by omega))

/-- An instruction raises a fault only under the cause's own condition. -/
theorem exec_mayRaise (i : Instr) : OnFault (MayRaise s i) (exec i s) := by
  cases i with
  | cls | jp | jpV0 | ldImm | addImm | ldReg | or | and | xor | addReg | sub | shr | subn | shl | rnd | ldVxDt | ldVxKey
  | ldDtVx | ldStVx | ldI | addI | ldF => exact .completes hf
  | seImm | sneImm | seReg | sneReg | skp | sknp => exact .completes ((skipIf_fault s _).trans hf)
  | ldB x =>
    refine .store hf (decimalDigits_ne_nil _) (.ldBFont x) fun hend => .ldBBeyond x ?_
    rw [length_decimalDigits, effectiveAddress_eq] at hend
    omega
  | storeRegs x =>
    refine .store hf (rangeOperand_ne_nil s x) (.storeRegsFont x) fun hend => .storeRegsBeyond x ?_
    rw [length_rangeOperand, effectiveAddress_eq] at hend
    omega
  | call nnn => exact execCall_mayRaise hf nnn
  | ret => exact execRet_mayRaise hf
  | drw x y n => exact execDrw_mayRaise hf x y n
  | loadRegs x => exact execLoadRegs_mayRaise hf x

end

/-! ### The faults of a step -/

/-- Inside memory fetch and decode raise for an illegal word alone (rules R67, R83). -/
theorem illegal_of_fetchInstr_error {s : State} {f : Fault} (hpc : s.pc.toNat ≤ 0xFFE) (h : fetchInstr s = .error f) :
    legalWord (s.byteAt s.pc.toNat ++ s.byteAt (s.pc.toNat + 1)) = false := by
  refine Bool.eq_false_iff.mpr fun hlegal => ?_
  obtain ⟨i, hi⟩ := (legalWord_iff_exists_decode _).mp hlegal
  cases h.symm.trans (fetchInstr_legal hpc hi)

/-- A step that leaves a fault ran, and fetch and decode raised it or the instruction they found. -/
theorem step_fault {s t : State} {c : Fault} (h : step s = .next t) (hc : t.fault = some c) :
    s.awaitingKey = none ∧ (fetchInstr s = .error c ∨ ∃ i, fetchInstr s = .ok i ∧ MayRaise (advance s) i c) := by
  obtain ⟨hf, ⟨x, -, rfl⟩ | ⟨ha, f, hfetch, rfl⟩ | ⟨ha, i, hi, e⟩⟩ := step_cases h
  · cases hf.symm.trans ((waitStep_fault x s).symm.trans hc)
  · cases hc
    exact ⟨ha, .inl hfetch⟩
  · exact ⟨ha, .inr ⟨i, hi, exec_mayRaise (s := advance s) hf i t c e hc⟩⟩

/-- Settles O16: the fetch raises beyond memory, the decode on an illegal word, and an instruction under its own condition,
which the advance of `pc` leaves as it was. -/
theorem faultsOnlyWhereRaised : Obligations.FaultsOnlyWhereRaised := by
  intro s t c h hc
  obtain ⟨ha, hfetch | ⟨i, hi, hraise⟩⟩ := step_fault h hc
  · rcases fetchInstr_error hfetch with ⟨hbeyond, rfl⟩ | ⟨hpc, rfl⟩
    · exact ⟨ha, .inl hbeyond⟩
    · exact ⟨ha, hpc, illegal_of_fetchInstr_error hpc hfetch⟩
  · refine ⟨ha, ?_⟩
    cases hraise with
    | callFull nnn full => exact ⟨full, nnn, hi⟩
    | retEmpty empty => exact ⟨empty, hi⟩
    | drwBeyond x y n rows beyond => exact .inr (.inl ⟨x, y, n, hi, rows, beyond⟩)
    | ldBBeyond x beyond => exact .inr (.inr (.inl ⟨x, hi, beyond⟩))
    | storeRegsBeyond x beyond => exact .inr (.inr (.inr ⟨x, .inl hi, beyond⟩))
    | loadRegsBeyond x beyond => exact .inr (.inr (.inr ⟨x, .inr hi, beyond⟩))
    | ldBFont x font => exact ⟨font, x, .inl hi⟩
    | storeRegsFont x font => exact ⟨font, x, .inr hi⟩

/-! ### The faulted condition -/

/-- A transaction that is accepted in the faulted condition keeps the fault, whatever it would leave elsewhere. -/
theorem unlessFaulted_fault {s : State} {c : Fault} (h : s.fault = some c) (t : State) :
    (unlessFaulted s t).fault = some c := by
  have hfaulted : s.fault ≠ none := h ▸ Option.some_ne_none c
  rw [unlessFaulted, if_neg hfaulted]
  exact h

theorem loadProgram_fault {s : State} {c : Fault} (h : s.fault = some c) (bytes : List Byte) :
    (loadProgram s bytes).1.fault = some c := by
  unfold loadProgram
  split <;> exact unlessFaulted_fault h _

/-- Settles O18, transaction by transaction. -/
theorem onlyResetClearsFault : Obligations.OnlyResetClearsFault := by
  refine fun s c h => ⟨fun tr hreset => ?_, rfl⟩
  cases tr with
  | reset => exact absurd rfl hreset
  | loadProgram bytes => exact loadProgram_fault h bytes
  | step => rwa [perform_step_faulted h]
  | tick | setKey => exact unlessFaulted_fault h _
  | framebuffer | isSoundActive => exact h

/-! ### The timers -/

theorem toNat_countDown (b : Byte) : (countDown b).toNat = b.toNat - 1 := by
  unfold countDown
  split
  · exact BitVec.toNat_sub_of_le (BitVec.le_def.mpr ‹0 < b.toNat›)
  · omega

theorem tick_faultless {s : State} (hf : s.fault = none) :
    tick s = (s.setDt (countDown s.dt)).setSt (countDown s.st) := if_pos hf

/-- Settles O51: with a fault the state is redrawn around it, and without one `tick` writes the two timers. -/
theorem tickCountsDown : Obligations.TickCountsDown := by
  refine fun s => ⟨fun c h => ⟨tick s, rfl, unlessFaulted_fault h _⟩, fun hf => ⟨tick s, rfl, ?_⟩⟩
  rw [tick_faultless hf]
  obtain ⟨memory, display, regs, pc, stack, rest⟩ :=
    frame_of_timers (s := s) (t := (s.setDt (countDown s.dt)).setSt (countDown s.st)) rfl
  exact ⟨toNat_countDown s.dt, toNat_countDown s.st, regs, pc, memory, stack, display, rest⟩

/-! ### The keypad -/

/-- A report that is no first press of a wait leaves the latch as it was (rule R218, decision D8). -/
theorem latchedEvent_other {s : State} {k : Key} {p : Bool}
    (h : p = false ∨ s.key k = true ∨ s.awaitingKey = none ∨ s.keyEvent ≠ none) :
    latchedEvent s k p = s.keyEvent := by
  refine if_neg ?_
  rintro ⟨rfl, hk, ha, he⟩
  rcases h with h | h | h | h
  · cases h
  · cases hk.symm.trans h
  · exact ha h
  · exact h he

/-- Settles O52: `setKey` writes one level, and the latch by whether the report is the first press of a wait. -/
theorem keyReportLatchesFirstPress : Obligations.KeyReportLatchesFirstPress := by
  refine fun s k p hf => ⟨setKey s k p, rfl, ?_⟩
  rw [setKey_faultless hf]
  have hlevel (q : Key) : (s.setKeyLevel k p).key q = if q = k then p else s.key q := s.key_setKeyLevel k q p
  refine ⟨(hlevel k).trans (if_pos rfl), fun q hq => (hlevel q).trans (if_neg hq), ?_, latchedEvent_other,
    rfl, fun _ _ => rfl, rfl, fun _ => rfl, ⟨rfl, rfl⟩, fun _ _ => rfl, ⟨rfl, rfl⟩, rfl, rfl⟩
  rintro rfl hk ha he
  exact latchedEvent_press hk ha he

/-! ### The read ports -/

/-- The sound port returns the tone level of the state. -/
theorem perform_isSoundActive_iff (s : State) (active : Bool) :
    perform .isSoundActive s = (s, .level active) ↔ toneLevel s = active := by
  simp [perform]

/-- A cell by its column and row (rule R17). -/
theorem cell_eq_getLsbD (s : State) {x y : Nat} (hx : x < 64) (hy : y < 32) :
    s.cell (y * 64 + x) = s.fb[y].getLsbD x := by
  have hrow : (y * 64 + x) / 64 = y := by omega
  have hcolumn : (y * 64 + x) % 64 = x := by omega
  rw [State.cell, cellOf, Config.dispW_eq, hrow, hcolumn, Vector.getElem?_eq_getElem hy, Option.getD_some]

/-- Settles O55: the ports return the tone level and the rows of the display, and leave the state they read. -/
theorem readPortsReadOnly : Obligations.ReadPortsReadOnly := by
  refine fun s => ⟨?_, ?_, s.fb, rfl, fun x y hx hy => (cell_eq_getLsbD s hx hy).symm⟩
  · exact (perform_isSoundActive_iff s true).trans (toneLevel_iff s)
  · rw [perform_isSoundActive_iff, ← Bool.not_eq_true, toneLevel_iff, Nat.pos_iff_ne_zero, not_not]

end Sys2Proof
end

section
/-! PROOFS. The family of 70_reset_and_hazards.md: the load of an image (rule R242), the first fetch behind a reset and a load
(rule R243), and the idle point (rule R252).

The order: what `loadProgram` does without a fault, by the length of the image; the first fetch, from the load; the idle point. -/

namespace Sys2Proof

open Machine

/-! ### The load -/

/-- Without a fault an image above `PROG_MAX` is turned down before any byte is copied (rule R242, decision D16). -/
theorem loadProgram_tooLong {s : State} (hf : s.fault = none) {bytes : List Byte} (h : Config.progMax < bytes.length) :
    loadProgram s bytes = (s, .loadError) := by
  rw [loadProgram, if_pos h, unlessFaulted, if_pos hf]

/-- Without a fault an image of up to `PROG_MAX` bytes is one run of writes from `PROG_BASE` (rule R242). -/
theorem loadProgram_fits {s : State} (hf : s.fault = none) {bytes : List Byte} (h : bytes.length ≤ Config.progMax) :
    loadProgram s bytes = (s.setMem (Memory.writeAll s.mem Config.progBase bytes), .loaded) := by
  rw [loadProgram, if_neg (Nat.not_lt.mpr h), unlessFaulted, if_pos hf]

/-- Settles O53: the length decides, and an image that fits reads back from where the run of writes stored it. -/
theorem loadCopiesImageOrFails : Obligations.LoadCopiesImageOrFails := by
  intro s bytes hf hm
  constructor
  · exact loadProgram_tooLong hf
  · intro hfits
    exact ⟨_, loadProgram_fits hf hfits, fun j hj => Memory.read_writeAll_inside s.mem hm.1 bytes hj,
      sameMemoryOutside_writeAll s _ rfl, frame_setMem s _⟩

/-! ### The first fetch -/

/-- Settles O56: the load changes memory alone, so the core is still running at `0x200`, where the image begins. -/
theorem firstFetchReadsImage : Obligations.FirstFetchReadsImage := by
  intro s b₀ b₁ rest hlen
  obtain ⟨t, hload, hbyte, -, -, -, hpc, -, -, ⟨-, hawait, -⟩, -, hfault⟩ :=
    (loadCopiesImageOrFails s.resetAll (b₀ :: b₁ :: rest) rfl Memory.wf_reset).2 hlen
  have hall : performAll [.reset, .loadProgram (b₀ :: b₁ :: rest)] s = t := congrArg Prod.fst hload
  have hentry : t.pc = 0x0200 := hpc
  have hfirst : t.byteAt 0x200 = b₀ := hbyte 0 (Nat.zero_lt_succ _)
  have hsecond : t.byteAt 0x201 = b₁ := hbyte 1 (Nat.succ_lt_succ (Nat.zero_lt_succ _))
  have hfetch : fetch t = .ok (t.byteAt 0x200 ++ t.byteAt 0x201) := by
    have hinside := fetch_inside t (by rw [hentry]; decide)
    rwa [hentry] at hinside
  rw [hall]
  exact ⟨⟨hfault, hawait⟩, hentry, by rw [hfetch, hfirst, hsecond]⟩

/-! ### The idle point -/

/-- A jump back to the `pc` of the fetch undoes the advance (rules R82, R100). -/
theorem exec_jp_advance {s : State} {nnn : BitVec 12} (h : addressOperand nnn = s.pc) :
    exec (.jp nnn) (advance s) = .next s := by
  rw [exec_jp, h]
  rfl

/-- Settles O57: the step executes a jump back to where it fetched. -/
theorem idlePointIsFixed : Obligations.IdlePointIsFixed := by
  rintro s ⟨⟨hf, ha⟩, nnn, hi, hself⟩
  exact (step_running hf ha hi).trans (exec_jp_advance hself)

end Sys2Proof
end
